-- ==== Sys2Proof/Word.lean ====
section
/-!
DEFINITION. The words the block moves: the 32-bit register word and the 8-bit command word.
Bit 0 is the least significant bit of each (spec/00_scope.md R7), a word denotes its unsigned value (R8).
-/

namespace Sys2Proof

/-- A 32-bit register or data word (R6 `W`, R13, R32). -/
abbrev Word := BitVec 32

/-- An 8-bit command word `OP[7:0]` (R6 `OP_BITS`, R36). -/
abbrev OpWord := BitVec 8

end Sys2Proof
end

