-- ==== Sys2Proof/Config.lean ====
section
/-!
DEFINITION. The parameters of the block: spec/00_scope.md R6 fixes every one of them, and spec/92_eei_decisions.md D40
leaves one more open, the cycle count of a command, which no rule and nothing in this model depends on.
-/

namespace Sys2Proof.Config

/-- `W` (R6): the width of every integer operand and result. -/
abbrev wordBits : Nat := 32

/-- `EXP_BITS` (R6): the width of the biased exponent field. -/
abbrev expBits : Nat := 8

/-- `FRAC_BITS` (R6): the width of the stored fraction field. -/
abbrev fracBits : Nat := 23

/-- `MANT_BITS` (R6): the fraction and its implicit leading 1. -/
abbrev mantBits : Nat := 24

/-- `FLOAT_BITS` (R6): sign, exponent and fraction together. -/
abbrev floatBits : Nat := 32

/-- `BIAS` (R6): what is added to the true exponent before it is stored. -/
abbrev bias : Nat := 127

/-- `OP_BITS` (R6): the width of a command word. -/
abbrev opBits : Nat := 8

/-- `CMD_CYCLES(op)` (R119, D40, U10): how many cycles a realisation takes for a command.
The spec leaves it OPEN and gives the model no time, so it has no body and nothing reads it (assumption log, entry 13). -/
opaque cmdCycles : OpWord → Nat

end Sys2Proof.Config
end

