-- ==== Sys2Proof/Machine/BitSeq.lean ====
section
/-!
DEFINITION. The BitSeq primitives of spec/40_bitseq_primitives.md (R46 to R57), at every width: internal functions of
the datapath, none of them a command. Bit 0 is the least significant bit (R7).
-/

namespace Sys2Proof.Machine

/-- R47: both strings zero-extended to a target `t` that is at least as wide as either. -/
def extendBoth {n m : Nat} (t : Nat) (a : BitVec n) (b : BitVec m) (_fits : n ≤ t ∧ m ≤ t) : BitVec t × BitVec t :=
  (a.setWidth t, b.setWidth t)

/-- R47 with a target `t`.
A target below an operand's width is outside the function (R47, U5), so it has no result. -/
def equalizeTo {n m : Nat} (t : Nat) (a : BitVec n) (b : BitVec m) : Option (BitVec t × BitVec t) :=
  if fits : n ≤ t ∧ m ≤ t then some (extendBoth t a b fits) else none

/-- R47 with no target: `t` is the wider of the two widths. -/
def equalize {n m : Nat} (a : BitVec n) (b : BitVec m) : BitVec (max n m) × BitVec (max n m) :=
  extendBoth (max n m) a b ⟨Nat.le_max_left n m, Nat.le_max_right n m⟩

/-- R48 `AND_t`, after equalization to `t` bits; U5's targets are shut out by its last argument. -/
def andN {n m : Nat} (t : Nat) (a : BitVec n) (b : BitVec m) (fits : n ≤ t ∧ m ≤ t) : BitVec t :=
  (extendBoth t a b fits).1 &&& (extendBoth t a b fits).2

/-- R48 `OR_t`, after equalization to `t` bits. -/
def orN {n m : Nat} (t : Nat) (a : BitVec n) (b : BitVec m) (fits : n ≤ t ∧ m ≤ t) : BitVec t :=
  (extendBoth t a b fits).1 ||| (extendBoth t a b fits).2

/-- R48 `XOR_t`, after equalization to `t` bits. -/
def xorN {n m : Nat} (t : Nat) (a : BitVec n) (b : BitVec m) (fits : n ≤ t ∧ m ≤ t) : BitVec t :=
  (extendBoth t a b fits).1 ^^^ (extendBoth t a b fits).2

/-- R49 `NEG_n`: every bit inverted, the sign bit included. -/
def negN {n : Nat} (a : BitVec n) : BitVec n := ~~~a

/-- R50 `LSHIFT_n`: the top `k` bits are dropped; 0 when `k` is the width or more. -/
def lshift {n : Nat} (a : BitVec n) (k : Nat) : BitVec n := a <<< k

/-- R51 `RSHIFT_n`: the low `k` bits are dropped without rounding; 0 when `k` is the width or more. -/
def rshift {n : Nat} (a : BitVec n) (k : Nat) : BitVec n := a >>> k

/-- R52: a left shift by the unsigned value of a bit string. -/
def lshiftBy {n m : Nat} (a : BitVec n) (s : BitVec m) : BitVec n := lshift a s.toNat

/-- R52: a right shift by the unsigned value of a bit string. -/
def rshiftBy {n m : Nat} (a : BitVec n) (s : BitVec m) : BitVec n := rshift a s.toNat

/-- R53 `EQ_n`, after equalization. -/
def eqN {n m : Nat} (a : BitVec n) (b : BitVec m) : Bool := (equalize a b).1 == (equalize a b).2

/-- R53 `LE_n`, after equalization: unsigned, and true on equality. -/
def leN {n m : Nat} (a : BitVec n) (b : BitVec m) : Bool := decide ((equalize a b).1.toNat ≤ (equalize a b).2.toNat)

/-- R53 `GE_n`, after equalization: unsigned, and true on equality. -/
def geN {n m : Nat} (a : BitVec n) (b : BitVec m) : Bool := decide ((equalize a b).2.toNat ≤ (equalize a b).1.toNat)

/-- R54 `FBI_n`, the first set bit counted from the most significant end: the count of leading zeros, `n` for zero. -/
def fbi {n : Nat} (a : BitVec n) : Nat := if a = 0 then n else n - 1 - Nat.log2 a.toNat

/-- R55 `IS_EMPTY_n`. -/
def isEmpty {n : Nat} (a : BitVec n) : Bool := a == 0

/-- R56 `FIT`: truncation from, or zero-extension at, the most significant end. -/
def fit {n : Nat} (a : BitVec n) (m : Nat) : BitVec m := a.setWidth m

/-- R57: the digit table. -/
def digit (c : Char) : Option (BitVec 4) :=
  if c = '0' then some 0b0000
  else if c = '1' then some 0b0001
  else if c = '2' then some 0b0010
  else if c = '3' then some 0b0011
  else if c = '4' then some 0b0100
  else if c = '5' then some 0b0101
  else if c = '6' then some 0b0110
  else if c = '7' then some 0b0111
  else if c = '8' then some 0b1000
  else if c = '9' then some 0b1001
  else none

/-- R57: the table's key `"10"`, the radix the decimal conversions multiply by. -/
def digitTen : BitVec 4 := 0b1010

end Sys2Proof.Machine
end

