-- ==== Sys2Proof/Machine/Engine.lean ====
section
/-!
DEFINITION. The arithmetic engine of spec/42_integer.md section 1 (R62 to R67), at every width, as the circuits the
spec describes: the ripple adder pass by pass, the multiplier and the divider bit by bit.
-/

namespace Sys2Proof.Machine

/-- R62: the adder's loop, given the passes left, the two strings and the carries shifted out so far. -/
def adderLoop {n : Nat} : Nat → BitVec n → BitVec n → Bool → BitVec n × Bool
  | 0, x, _, cout => (x, cout)
  | passes + 1, x, y, cout =>
    let carry := andN n x y ⟨Nat.le_refl n, Nat.le_refl n⟩
    let rem := xorN n x y ⟨Nat.le_refl n, Nat.le_refl n⟩
    let cout' := cout || carry.msb
    let carry' := lshift carry 1
    if isEmpty carry' then (rem, cout') else adderLoop passes rem carry' cout'

/-- R62 `ADDER_n`: the sum and the carry-out. The loop ends by pass `n` at the latest. -/
def adder {n : Nat} (a b : BitVec n) : BitVec n × Bool := adderLoop n a b false

/-- R63 `COMPL_n`: bitwise NOT, then add 1, with the carry of that addition. -/
def compl {n : Nat} (a : BitVec n) : BitVec n × Bool := adder (negN a) 1

/-- R64 `DECOMPL_n`: subtract 1, then bitwise NOT; no flag. -/
def decompl {n : Nat} (a : BitVec n) : BitVec n := negN (adder a (BitVec.allOnes n)).1

/-- R65 `SUBR_n`: add the complement; the complement's own carry is discarded. -/
def subr {n : Nat} (a b : BitVec n) : BitVec n × Bool := adder a (compl b).1

/-- R66: the multiplier's accumulator after bits `0` to `k-1` of `b`. -/
def mulPrefix {n : Nat} (a b : BitVec n) : Nat → BitVec n
  | 0 => 0
  | k + 1 =>
    let acc := mulPrefix a b k
    if b.getLsbD k then (adder acc (lshift a k)).1 else acc

/-- R66 `MULR_n`: shift-and-add over every bit of `b`; the inner carries are discarded. -/
def mulr {n : Nat} (a b : BitVec n) : BitVec n := mulPrefix a b n

/-- R67: the divider's bits `k-1` down to `0`, given the running `q * b` (exact, never truncated) and the quotient. -/
def divLoop {n : Nat} (a b : BitVec n) : Nat → Nat → BitVec n → BitVec n
  | 0, _, q => q
  | k + 1, acc, q =>
    let t := acc + b.toNat * 2 ^ k
    if t ≤ a.toNat then divLoop a b k t (q ||| BitVec.twoPow n k) else divLoop a b k acc q

/-- R67 `DIVR_n`, for `b ≠ 0` (its callers see to that: entry 9): the quotient only. -/
def divr {n : Nat} (a b : BitVec n) : BitVec n := divLoop a b n 0 0

/-- R79: one digit of the decimal conversion. -/
def strToIntStep (n : Nat) (r : BitVec n) (d : BitVec 4) : BitVec n :=
  (adder (mulr r (fit digitTen n)) (fit d n)).1

/-- R79: the digits left to right from the running result; none at a character that is no digit. -/
def strToIntFrom (n : Nat) : BitVec n → List Char → Option (BitVec n)
  | r, [] => some r
  | r, c :: cs =>
    match digit c with
    | some d => strToIntFrom n (strToIntStep n r d) cs
    | none => none

/-- R79 `STR_TO_INT_n`, on strings that match `[0-9]+`. -/
def strToInt (n : Nat) : List Char → Option (BitVec n)
  | [] => none
  | c :: cs => strToIntFrom n 0 (c :: cs)

end Sys2Proof.Machine
end

