-- ==== Sys2Proof/Machine/Flags.lean ====
section
/-!
DEFINITION. How `OVF`, the block's only flag, comes out where it is not the carry that the adder itself returns
(spec/10_state.md R18). The carries of `ADD`, `SUB` and `COMP` are the second result of the adder, the subtractor and the
complementer of Engine.lean.
-/

namespace Sys2Proof.Machine

/-- R18, D11: a computing command whose operation returns no flag writes 0.
These are `MUL`, `DIV`, `DECOMP`, `FEQ`, the codec commands and the constants. -/
def noFlag : Bool := false

/-- R94: a biased exponent of 255 or more is the overflow that `FADD`, `FSUB`, `FMUL` and `FDIV` report. -/
def exponentOverflow (e : Int) : Bool := decide (255 ≤ e)

/-- R74: the signed overflow of `ADD`, which a program computes from the sign bits; no command reports it. -/
def signedOverflow (a b r : Word) : Bool := a.msb == b.msb && r.msb != a.msb

end Sys2Proof.Machine
end

