-- ==== Sys2Proof/Syntax.lean ====
section
/-!
DEFINITION. The commands of spec/30_encoding.md R41, one constructor of `Instr` for each row of the opcode table, the
registers by name, and what the host can present to the block (R28, R36, R114).
-/

namespace Sys2Proof

/-- The 26 commands of R41. Only `WRA` and `WRB` carry an operand, the whole 32-bit data word (R40). -/
inductive Instr where
  | wra (data : Word)
  | wrb (data : Word)
  | rtoa
  | rtob
  | add
  | sub
  | mul
  | div
  | comp
  | decomp
  | fadd
  | fsub
  | fmul
  | fdiv
  | feq
  | fiszero
  | fisinf
  | fisnan
  | fsgn
  | fexp
  | ffrac
  | fpack
  | fmax
  | fmin
  | finf
  | fnan
  deriving DecidableEq, Repr

/-- The two command formats: `P`, the command word alone (R37), and `D`, a data word after it (R38). -/
inductive Format where
  | P
  | D
  deriving DecidableEq, Repr

/-- The block's registers by name (R13, R14: named, not numbered, and no other exists). -/
inductive Reg where
  | opa
  | opb
  | res
  | ovf
  | status
  deriving DecidableEq, Repr

/-- One thing the host does at the block's ports.
The host presents command words and data words (R36), reads a register between commands (R28), or asserts reset (R114). -/
inductive HostEvent where
  | command (op : OpWord)
  | data (d : Word)
  | read (r : Reg)
  | reset
  deriving DecidableEq, Repr

end Sys2Proof
end

