-- ==== Sys2Proof/Machine/State.lean ====
section
/-!
DEFINITION. The state of the block (spec/10_state.md R13 to R28) and of the host it serves (spec/00_scope.md R12), as
plain data, and the state right after reset (R27, R114). There is no memory and no program counter: R24 and R29 say that
the block has none, and that a model must not add one.
-/

namespace Sys2Proof.Machine

/-- `STATUS`, 2 bits: every value has a name and there are no reserved bits (R20). -/
inductive Status where
  /-- 0: no command has finished since reset. -/
  | none
  /-- 1: the last command finished and wrote its results. -/
  | ok
  /-- 2: the last command was `DIV` with `OPB = 0`; nothing else was written. -/
  | divzero
  /-- 3: the last command word was reserved; nothing else was written. -/
  | illegal
  deriving DecidableEq, Repr

/-- What a host read returns: 32 bits of `RES`, 1 bit of `OVF`, or 2 bits of `STATUS` (R32). -/
inductive Answer where
  | res (w : Word)
  | ovf (b : Bool)
  | status (c : BitVec 2)
  deriving DecidableEq, Repr

/-- The one way the machine stops with a fault. -/
inductive Fault where
  /-- `fault UNWRITTEN(REG)` (R19, R106): raised by a command that reads `OPA`, `OPB` or `RES` while its written bit is
  clear, and by a host read of `RES` or `OVF` then. The stop is the spec's: "so it stops in a fault state" (R106), and U4
gives the treatment `fault`. Safe: "the chip would compute with some value" (R19). -/
  | unwritten (r : Reg)
  deriving DecidableEq, Repr

/-- What the machine gives no meaning to. Every reason but the first is a stream the spec says no host presents. -/
inductive Refusal where
  /-- An instruction whose meaning is not written: raised by no arm of this model. Safe. -/
  | notModelled (mnemonic : String)
  /-- `WRA` or `WRB` without its data word: raised by the step. R36: "Every command arrives whole: the unit never sees
  part of one". Safe. -/
  | partialCommand (op : OpWord)
  /-- A data word that follows no `WRA` or `WRB`: raised by the step. R38 gives it no meaning. Safe. -/
  | strayData (d : Word)
  /-- A host read of `OPA` or `OPB`: raised by the host's read. U11: "the host cannot read them". Safe. -/
  | hostCannotRead (r : Reg)
  deriving DecidableEq, Repr

/-- Everything the spec gives the machine.
The last two fields are the model's own: the host's side of the ports, which the spec calls the other agent (R12). -/
structure State where
  /-- `OPA`, operand A (R15). -/
  opa : Word
  /-- `OPB`, operand B (R16). -/
  opb : Word
  /-- `RES`, the result (R17). -/
  res : Word
  /-- `OVF`, the only condition flag (R18). -/
  ovf : Bool
  /-- `STATUS` (R20). -/
  status : Status
  /-- The hidden written bit of `OPA` (R19). -/
  opaWritten : Bool
  /-- The hidden written bit of `OPB` (R19). -/
  opbWritten : Bool
  /-- The hidden written bit that `RES` and `OVF` share (R19). -/
  resWritten : Bool
  /-- DESIGN CHOICE, safe (entry 3): what the host does next at the ports, first event first (R12, R33, R36). -/
  host : List HostEvent
  /-- DESIGN CHOICE, safe (entry 6): what the host's last read returned (R28), none before the first. -/
  answer : Option Answer
  deriving DecidableEq, Repr

/-- R27: `STATUS` is `NONE`, every written bit is clear, nothing is presented yet.
DESIGN CHOICE, unsafe (assumption log, entry 2): the spec gives the unwritten registers no content, the model puts 0
there; no step reads it. -/
def State.reset : State where
  opa := 0
  opb := 0
  res := 0
  ovf := false
  status := .none
  opaWritten := false
  opbWritten := false
  resWritten := false
  host := []
  answer := none

end Sys2Proof.Machine
end

