-- ==== Sys2Proof/Machine/Operands.lean ====
section
/-!
DEFINITION. Every operand form: which registers a command reads and writes (spec/30_encoding.md R41), the float view of
a word (spec/10_state.md R23, spec/43_float_codec.md R75, R76), the raw fields `FPACK` takes (R87), and how a narrow
result is held in a 32-bit word (R17, R40).
-/

namespace Sys2Proof.Machine

/-- R41, column "reads", in the order R43 checks them. -/
def reads : Instr → List Reg
  | .wra _ | .wrb _ => []
  | .rtoa | .rtob => [.res]
  | .add | .sub | .mul | .div => [.opa, .opb]
  | .comp | .decomp => [.opa]
  | .fadd | .fsub | .fmul | .fdiv | .feq => [.opa, .opb]
  | .fiszero | .fisinf | .fisnan | .fsgn | .fexp | .ffrac => [.opa]
  | .fpack => [.opa, .opb]
  | .fmax | .fmin | .finf | .fnan => []

/-- R41, column "writes": what a command writes when it completes, `STATUS` apart. -/
def writes : Instr → List Reg
  | .wra _ | .rtoa => [.opa]
  | .wrb _ | .rtob => [.opb]
  | .add | .sub | .mul | .div | .comp | .decomp => [.res, .ovf]
  | .fadd | .fsub | .fmul | .fdiv | .feq => [.res, .ovf]
  | .fiszero | .fisinf | .fisnan | .fsgn | .fexp | .ffrac | .fpack => [.res, .ovf]
  | .fmax | .fmin | .finf | .fnan => [.res, .ovf]

/-- R13: a computing command is any but `WRA`, `WRB`, `RTOA` and `RTOB`. -/
def isComputing : Instr → Bool
  | .wra _ | .wrb _ | .rtoa | .rtob => false
  | .add | .sub | .mul | .div | .comp | .decomp => true
  | .fadd | .fsub | .fmul | .fdiv | .feq => true
  | .fiszero | .fisinf | .fisnan | .fsgn | .fexp | .ffrac | .fpack => true
  | .fmax | .fmin | .finf | .fnan => true

/-- R19: the written bit of a register; `RES` and `OVF` share one, and `STATUS` always holds a value (R27). -/
def State.written (s : State) : Reg → Bool
  | .opa => s.opaWritten
  | .opb => s.opbWritten
  | .res | .ovf => s.resWritten
  | .status => true

/-- R43, R108: the first unwritten register among those listed, in their order. -/
def State.firstUnwritten (s : State) (rs : List Reg) : Option Reg := rs.find? fun r => !s.written r

/-- R20: the code of a status value. -/
def Status.code : Status → BitVec 2
  | .none => 0
  | .ok => 1
  | .divzero => 2
  | .illegal => 3

/-- R75: the sign, bit 31. -/
def sgnOf (x : Word) : Bool := x.getLsbD 31

/-- R75: the biased exponent, bits 30:23. -/
def expOf (x : Word) : BitVec 8 := x.extractLsb' 23 8

/-- R75: the fraction, bits 22:0. -/
def fracOf (x : Word) : BitVec 23 := x.extractLsb' 0 23

/-- R75: the 24-bit mantissa with its implicit leading 1, as an exact natural number. -/
def mantOf (x : Word) : Nat := 2 ^ 23 + (fracOf x).toNat

/-- R23: the three fields packed into a float word. -/
def packFields (sg : Bool) (e : BitVec 8) (f : BitVec 23) : Word := (BitVec.ofBool sg ++ e ++ f : BitVec (1 + 8 + 23))

/-- R76 `ZERO`: for either sign. -/
def isZero (x : Word) : Bool := expOf x == 0 && fracOf x == 0

/-- R76 `INF`. -/
def isInf (x : Word) : Bool := expOf x == 255 && fracOf x == 0

/-- R76 `NAN`. -/
def isNan (x : Word) : Bool := expOf x == 255 && fracOf x != 0

/-- R76 `ORD`: none of the others. Exponent 0 with a nonzero fraction is ordinary. -/
def isOrd (x : Word) : Bool := !isZero x && !isInf x && !isNan x

/-- R98: the sign bit flipped, for every word. -/
def flipSign (x : Word) : Word := packFields (!sgnOf x) (expOf x) (fracOf x)

/-- R87: the sign in `OPA[8]`, the biased exponent in `OPA[7:0]`, the fraction in `OPB[22:0]`; other bits ignored. -/
def packOperands (a b : Word) : Word := packFields (a.getLsbD 8) (a.extractLsb' 0 8) (b.extractLsb' 0 23)

/-- D29: a predicate's result, 1 for true and 0 for false, zero-extended. -/
def boolWord (b : Bool) : Word := if b then 1 else 0

/-- R17, R40: a narrow field, zero-extended to 32 bits. -/
def fieldWord {n : Nat} (v : BitVec n) : Word := fit v 32

end Sys2Proof.Machine
end

