-- ==== Sys2Proof/Machine/FloatData.lean ====
section
/-!
DEFINITION. The float datapath: the shared stages of spec/44_float_arith.md section 1 (R92 to R96), the four arithmetic
functions of R97 to R100, and the two specification functions of spec/43_float_codec.md, the decoder `val` (R77) and the
decimal encoder `ENC` (R78). Mantissas are exact natural numbers and exponents unbounded integers (R9, R94).
-/

namespace Sys2Proof.Machine

/-- `CANON_NAN` (R6, R91, R92). -/
def canonNan : Word := 0x7FFFFFFF

/-- A zero with a sign. -/
def signedZero (sg : Bool) : Word := packFields sg 0 0

/-- An infinity with a sign. -/
def signedInf (sg : Bool) : Word := packFields sg 255 0

/-- A result before it is packed: its sign, its unbounded biased exponent and its mantissa. -/
structure Unpacked where
  sign : Bool
  exp : Int
  mant : Nat
  deriving DecidableEq, Repr

/-- R93 `SHRR`: a right shift that adds one unit when any shifted-out bit is 1. -/
def shrr (v k : Nat) : Nat := v / 2 ^ k + if v % 2 ^ k ≠ 0 then 1 else 0

/-- R94 `PACK`, for `2^23 ≤ mant < 2^24`: the word and the overflow flag. -/
def pack (u : Unpacked) : Word × Bool :=
  if exponentOverflow u.exp then (signedInf u.sign, true)
  else if u.exp < 0 then (signedZero u.sign, noFlag)
  else (packFields u.sign (BitVec.ofInt 8 u.exp) (BitVec.ofNat 23 (u.mant - 2 ^ 23)), noFlag)

/-- R95 `ALIGN`: the larger exponent, and both mantissas at it. -/
def align (ea ma eb mb : Nat) : Nat × Nat × Nat :=
  if eb ≤ ea then (ea, ma, shrr mb (ea - eb)) else (eb, shrr ma (eb - ea), mb)

/-- R96 `NORM`, for `0 < mr < 2^24`: left until the leading 1 is at bit 23. -/
def norm (e : Int) (mr : Nat) : Int × Nat :=
  let k := fbi (BitVec.ofNat 24 mr)
  (e - k, mr * 2 ^ k)

/-- R97, both operands ordinary: what is packed, or none at an exact cancellation. -/
def addOrdinary (a b : Word) : Option Unpacked :=
  let aligned := align (expOf a).toNat (mantOf a) (expOf b).toNat (mantOf b)
  let e := aligned.1
  let ma := aligned.2.1
  let mb := aligned.2.2
  if sgnOf a = sgnOf b then
    let mr := ma + mb
    -- the bound R97 states beside its loop: at most one pass (C10)
    if 2 ^ 24 ≤ mr then some ⟨sgnOf a, e + 1, shrr mr 1⟩ else some ⟨sgnOf a, e, mr⟩
  else
    let sg := if mb ≤ ma then sgnOf a else sgnOf b
    let mr := if mb ≤ ma then ma - mb else mb - ma
    if mr = 0 then none
    else
      let n := norm e mr
      some ⟨sg, n.1, n.2⟩

/-- R97 `FADD`, before `RES` and `OVF` are written. -/
def faddFn (a b : Word) : Word × Bool :=
  if isNan a || isNan b then (canonNan, noFlag)
  else if isInf a && isInf b then
    if sgnOf a = sgnOf b then (a, noFlag) else (canonNan, noFlag)
  else if isInf a then (a, noFlag)
  else if isInf b then (b, noFlag)
  else if isZero a && isZero b then (signedZero (sgnOf a && sgnOf b), noFlag)
  else if isZero a then (b, noFlag)
  else if isZero b then (a, noFlag)
  else
    match addOrdinary a b with
    | none => (0x00000000, noFlag)
    | some u => pack u

/-- R98 `FSUB`: `a + (-b)`. -/
def fsubFn (a b : Word) : Word × Bool := faddFn a (flipSign b)

/-- R99, both operands ordinary: what is packed. -/
def mulOrdinary (a b : Word) : Unpacked :=
  let sg := sgnOf a ^^ sgnOf b
  let e : Int := ((expOf a).toNat : Int) + ((expOf b).toNat : Int) - (Config.bias : Int)
  let p := mantOf a * mantOf b
  let mr := if 2 ^ 47 ≤ p then shrr p 24 else shrr p 23
  let e := if 2 ^ 47 ≤ p then e + 1 else e
  if mr = 2 ^ 24 then ⟨sg, e + 1, 2 ^ 23⟩ else ⟨sg, e, mr⟩

/-- R99 `FMUL`, before `RES` and `OVF` are written. -/
def fmulFn (a b : Word) : Word × Bool :=
  let sg := sgnOf a ^^ sgnOf b
  if isNan a || isNan b then (canonNan, noFlag)
  else if (isInf a && isZero b) || (isZero a && isInf b) then (canonNan, noFlag)
  else if isInf a || isInf b then (signedInf sg, noFlag)
  else if isZero a || isZero b then (signedZero sg, noFlag)
  else pack (mulOrdinary a b)

/-- R100, both operands ordinary: what is packed. -/
def divOrdinary (a b : Word) : Unpacked :=
  let sg := sgnOf a ^^ sgnOf b
  let mb : BitVec 48 := BitVec.ofNat 48 (mantOf b)
  if mantOf b ≤ mantOf a then
    ⟨sg, ((expOf a).toNat : Int) - ((expOf b).toNat : Int) + (Config.bias : Int),
      (divr (BitVec.ofNat 48 (mantOf a * 2 ^ 23)) mb).toNat⟩
  else
    ⟨sg, ((expOf a).toNat : Int) - ((expOf b).toNat : Int) + 126,
      (divr (BitVec.ofNat 48 (mantOf a * 2 ^ 24)) mb).toNat⟩

/-- R100 `FDIV`, before `RES` and `OVF` are written. -/
def fdivFn (a b : Word) : Word × Bool :=
  let sg := sgnOf a ^^ sgnOf b
  if isNan a || isNan b then (canonNan, noFlag)
  else if isZero a && isZero b then (canonNan, noFlag)
  else if isZero b then (signedInf sg, noFlag)
  else if isInf a && isInf b then (canonNan, noFlag)
  else if isInf a then (signedInf sg, noFlag)
  else if isInf b then (signedZero sg, noFlag)
  else if isZero a then (signedZero sg, noFlag)
  else pack (divOrdinary a b)

/-- R77: what a float word denotes. -/
inductive FloatVal where
  | finite (q : Rat)
  | posInf
  | negInf
  | nan
  deriving DecidableEq, Repr

/-- R77: the exact value of an ordinary word, `(-1)^s * m * 2^(e - 127 - 23)`. -/
def ordVal (x : Word) : Rat :=
  let m : Rat := if sgnOf x then -(mantOf x : Rat) else (mantOf x : Rat)
  let e := (expOf x).toNat
  if Config.bias + Config.fracBits ≤ e then m * (2 ^ (e - (Config.bias + Config.fracBits)) : Nat)
  else m / (2 ^ (Config.bias + Config.fracBits - e) : Nat)

/-- R77 `val`. -/
def val (x : Word) : FloatVal :=
  if isZero x then .finite 0
  else if isNan x then .nan
  else if isInf x then if sgnOf x then .negInf else .posInf
  else .finite (ordVal x)

/-- R78: the longest run of decimal digits at the front of a string, and the rest. -/
def takeDigits : List Char → List (BitVec 4) × List Char
  | [] => ([], [])
  | c :: cs =>
    match digit c with
    | some d => (d :: (takeDigits cs).1, (takeDigits cs).2)
    | none => ([], c :: cs)

/-- A decimal as read: its sign, the digits before the point, and the digits after it. -/
structure Decimal where
  negative : Bool
  intDigits : List (BitVec 4)
  fracDigits : List (BitVec 4)
  deriving DecidableEq, Repr

/-- R78's grammar without the sign: `[0-9]+(\.[0-9]*)?`. -/
def parseUnsigned (neg : Bool) (t : List Char) : Option Decimal :=
  let ip := takeDigits t
  if ip.1 = [] then none
  else
    match ip.2 with
    | [] => some ⟨neg, ip.1, []⟩
    | c :: cs =>
      let fp := takeDigits cs
      if c = '.' ∧ fp.2 = [] then some ⟨neg, ip.1, fp.1⟩ else none

/-- R78's grammar: `-?[0-9]+(\.[0-9]*)?`. -/
def parseDecimal : List Char → Option Decimal
  | [] => none
  | c :: cs => if c = '-' then parseUnsigned true cs else parseUnsigned false (c :: cs)

/-- The natural number a list of decimal digits denotes. -/
def digitsValue (ds : List (BitVec 4)) : Nat := ds.foldl (fun v d => v * 10 + d.toNat) 0

/-- The numerator of a decimal's exact value, over `10 ^ fracDigits.length` (R78). -/
def Decimal.numerator (d : Decimal) : Nat := digitsValue (d.intDigits ++ d.fracDigits)

/-- The denominator of a decimal's exact value (R78). -/
def Decimal.denominator (d : Decimal) : Nat := 10 ^ d.fracDigits.length

/-- `floor(log2(p / q))` for positive `p` and `q` (R78 `ex`). -/
def floorLog2 (p q : Nat) : Int :=
  if q ≤ p then Nat.log2 (p / q)
  else Int.negSucc (Nat.log2 ((q + p - 1) / p - 1))

/-- `floor((p / q) * 2^k)` for positive `q` (R78 `mt` and `g`). -/
def floorScaled (p q : Nat) (k : Int) : Nat :=
  if 0 ≤ k then p * 2 ^ k.toNat / q else p / (q * 2 ^ (-k).toNat)

/-- R78: the mantissa and exponent of a positive value `p / q`, rounded up on the first discarded bit. -/
def encodeMagnitude (sg : Bool) (p q : Nat) : Unpacked :=
  let ex := floorLog2 p q
  let mt := floorScaled p q (23 - ex) + floorScaled p q (24 - ex) % 2
  let e := ex + Config.bias
  if mt = 2 ^ 24 then ⟨sg, e + 1, 2 ^ 23⟩ else ⟨sg, e, mt⟩

/-- R78: the word a decimal of the grammar denotes. -/
def encDecimal (d : Decimal) : Word :=
  if d.numerator = 0 then signedZero d.negative
  else (pack (encodeMagnitude d.negative d.numerator d.denominator)).1

/-- R78 `ENC`: none outside its grammar, which is the caller's to keep to (U2). -/
def enc (t : List Char) : Option Word := (parseDecimal t).map encDecimal

end Sys2Proof.Machine
end

