-- ==== Sys2Proof/Machine/Ops.lean ====
section
/-!
DEFINITION. The operations every meaning is made of: a checked register read (spec/10_state.md R19), a completion (R21),
and a raise, the one way a command ends with an exception (R21, spec/60_exceptions.md R103 to R110). A raise is not a
trap: it saves nothing and goes nowhere (R109), so there is no return from it either (R110).
-/

namespace Sys2Proof.Machine

/-- How a command ends. -/
abbrev Result := Host.Outcome State Fault Refusal

/-- R103: the two architectural exception causes. -/
inductive Cause where
  | divzero
  | illegal
  deriving DecidableEq, Repr

/-- R103: the `STATUS` value that reports a cause. -/
def Cause.status : Cause → Status
  | .divzero => .divzero
  | .illegal => .illegal

/-- R58, R60: `OPA` and its written bit. -/
def State.setOpa (s : State) (d : Word) : State := { s with opa := d, opaWritten := true }

/-- R59, R61: `OPB` and its written bit. -/
def State.setOpb (s : State) (d : Word) : State := { s with opb := d, opbWritten := true }

/-- R19: `RES` and `OVF`, always written together, and the written bit they share. -/
def State.setResult (s : State) (r : Word) (v : Bool) : State := { s with res := r, ovf := v, resWritten := true }

/-- R20: `STATUS`, which each command writes once, as it finishes. -/
def State.setStatus (s : State) (c : Status) : State := { s with status := c }

/-- The host's stream moves on to what stands after the event just taken (R33). -/
def State.withHost (s : State) (rest : List HostEvent) : State := { s with host := rest }

/-- What the host's read returned (R28). -/
def State.setAnswer (s : State) (a : Answer) : State := { s with answer := some a }

/-- R21, R109: a raise writes `STATUS` and nothing else. -/
def raise (c : Cause) (s : State) : Result := .next (s.setStatus c.status)

/-- R19, R43, R106, U4: read `OPA`, or stop with `fault UNWRITTEN(OPA)`. -/
def readOpa (s : State) (k : Word → Result) : Result := if s.opaWritten then k s.opa else .fault (.unwritten .opa)

/-- R19, R43, R106, U4: read `OPB`, or stop with `fault UNWRITTEN(OPB)`. -/
def readOpb (s : State) (k : Word → Result) : Result := if s.opbWritten then k s.opb else .fault (.unwritten .opb)

/-- R19, R43, R106, U4: read `RES`, or stop with `fault UNWRITTEN(RES)`. -/
def readRes (s : State) (k : Word → Result) : Result := if s.resWritten then k s.res else .fault (.unwritten .res)

/-- R43, R108: both operands, `OPA` checked first. -/
def readBoth (s : State) (k : Word → Word → Result) : Result := readOpa s fun a => readOpb s fun b => k a b

/-- R58: write `OPA` and complete. -/
def writeOpa (d : Word) (s : State) : Result := .next ((s.setOpa d).setStatus .ok)

/-- R59: write `OPB` and complete. -/
def writeOpb (d : Word) (s : State) : Result := .next ((s.setOpb d).setStatus .ok)

/-- R21: a computing command completes. -/
def complete (r : Word) (v : Bool) (s : State) : Result := .next ((s.setResult r v).setStatus .ok)

end Sys2Proof.Machine
end

