-- ==== Sys2Proof/Machine/FloatArith.lean ====
section
/-!
DEFINITION. The float commands of spec/44_float_arith.md section 2 (R97 to R101).
-/

namespace Sys2Proof.Machine

/-- `FADD` (R97). -/
def execFadd (s : State) : Result := readBoth s fun a b => complete (faddFn a b).1 (faddFn a b).2 s

/-- `FSUB` (R98). -/
def execFsub (s : State) : Result := readBoth s fun a b => complete (fsubFn a b).1 (fsubFn a b).2 s

/-- `FMUL` (R99). -/
def execFmul (s : State) : Result := readBoth s fun a b => complete (fmulFn a b).1 (fmulFn a b).2 s

/-- `FDIV` (R100): a zero divisor is a value, not an exception. -/
def execFdiv (s : State) : Result := readBoth s fun a b => complete (fdivFn a b).1 (fdivFn a b).2 s

/-- `FEQ` (R101): bit for bit. -/
def execFeq (s : State) : Result := readBoth s fun a b => complete (boolWord (eqN a b)) noFlag s

end Sys2Proof.Machine
end

