-- ==== Sys2Proof/Machine/FloatCodec.lean ====
section
/-!
DEFINITION. The codec commands of spec/43_float_codec.md section 3 (R81 to R91): each writes `OVF` with 0 and raises
nothing.
-/

namespace Sys2Proof.Machine

/-- `FISZERO` (R81). -/
def execFiszero (s : State) : Result := readOpa s fun x => complete (boolWord (isZero x)) noFlag s

/-- `FISINF` (R82). -/
def execFisinf (s : State) : Result := readOpa s fun x => complete (boolWord (isInf x)) noFlag s

/-- `FISNAN` (R83). -/
def execFisnan (s : State) : Result := readOpa s fun x => complete (boolWord (isNan x)) noFlag s

/-- `FSGN` (R84). -/
def execFsgn (s : State) : Result := readOpa s fun x => complete (boolWord (sgnOf x)) noFlag s

/-- `FEXP` (R85): the exponent stays biased. -/
def execFexp (s : State) : Result := readOpa s fun x => complete (fieldWord (expOf x)) noFlag s

/-- `FFRAC` (R86): without the implicit leading 1. -/
def execFfrac (s : State) : Result := readOpa s fun x => complete (fieldWord (fracOf x)) noFlag s

/-- `FPACK` (R87): no field is validated. -/
def execFpack (s : State) : Result := readBoth s fun a b => complete (packOperands a b) noFlag s

/-- `FMAX` (R88): the largest finite value. -/
def execFmax (s : State) : Result := complete 0x7F7FFFFF noFlag s

/-- `FMIN` (R89): the source's minimum constant (C2). -/
def execFmin (s : State) : Result := complete 0x80800001 noFlag s

/-- `FINF` (R90): positive infinity. -/
def execFinf (s : State) : Result := complete 0x7F800000 noFlag s

/-- `FNAN` (R91): the canonical NaN. -/
def execFnan (s : State) : Result := complete canonNan noFlag s

end Sys2Proof.Machine
end

