-- ==== Sys2Proof/Machine/Integer.lean ====
section
/-!
DEFINITION. The integer commands of spec/42_integer.md section 2 (R68 to R73), all at 32 bits.
-/

namespace Sys2Proof.Machine

/-- `ADD` (R68). -/
def execAdd (s : State) : Result := readBoth s fun a b => complete (adder a b).1 (adder a b).2 s

/-- `SUB` (R69). -/
def execSub (s : State) : Result := readBoth s fun a b => complete (subr a b).1 (subr a b).2 s

/-- `MUL` (R70). -/
def execMul (s : State) : Result := readBoth s fun a b => complete (mulr a b) noFlag s

/-- `DIV` (R71): a zero divisor raises before anything is computed (R104). -/
def execDiv (s : State) : Result :=
  readBoth s fun a b => if b = 0 then raise .divzero s else complete (divr a b) noFlag s

/-- `COMP` (R72). -/
def execComp (s : State) : Result := readOpa s fun a => complete (compl a).1 (compl a).2 s

/-- `DECOMP` (R73). -/
def execDecomp (s : State) : Result := readOpa s fun a => complete (decompl a) noFlag s

end Sys2Proof.Machine
end

