-- ==== Sys2Proof/Machine/Interface.lean ====
section
/-!
DEFINITION. The interface commands of spec/41_interface_commands.md (R58 to R61). None writes `RES` or `OVF`.
-/

namespace Sys2Proof.Machine

/-- `WRA` (R58). -/
def execWra (d : Word) (s : State) : Result := writeOpa d s

/-- `WRB` (R59). -/
def execWrb (d : Word) (s : State) : Result := writeOpb d s

/-- `RTOA` (R60). -/
def execRtoa (s : State) : Result := readRes s fun r => writeOpa r s

/-- `RTOB` (R61). -/
def execRtob (s : State) : Result := readRes s fun r => writeOpb r s

end Sys2Proof.Machine
end

