-- ==== Sys2Proof/Machine/Dispatch.lean ====
section
/-!
DEFINITION. One arm for each command of spec/30_encoding.md R41.
-/

namespace Sys2Proof.Machine

def exec (i : Instr) (s : State) : Host.Outcome State Fault Refusal :=
  match i with
  | .wra data => Sys2Proof.Machine.execWra data s
  | .wrb data => Sys2Proof.Machine.execWrb data s
  | .rtoa => Sys2Proof.Machine.execRtoa s
  | .rtob => Sys2Proof.Machine.execRtob s
  | .add => Sys2Proof.Machine.execAdd s
  | .sub => Sys2Proof.Machine.execSub s
  | .mul => Sys2Proof.Machine.execMul s
  | .div => Sys2Proof.Machine.execDiv s
  | .comp => Sys2Proof.Machine.execComp s
  | .decomp => Sys2Proof.Machine.execDecomp s
  | .fadd => Sys2Proof.Machine.execFadd s
  | .fsub => Sys2Proof.Machine.execFsub s
  | .fmul => Sys2Proof.Machine.execFmul s
  | .fdiv => Sys2Proof.Machine.execFdiv s
  | .feq => Sys2Proof.Machine.execFeq s
  | .fiszero => Sys2Proof.Machine.execFiszero s
  | .fisinf => Sys2Proof.Machine.execFisinf s
  | .fisnan => Sys2Proof.Machine.execFisnan s
  | .fsgn => Sys2Proof.Machine.execFsgn s
  | .fexp => Sys2Proof.Machine.execFexp s
  | .ffrac => Sys2Proof.Machine.execFfrac s
  | .fpack => Sys2Proof.Machine.execFpack s
  | .fmax => Sys2Proof.Machine.execFmax s
  | .fmin => Sys2Proof.Machine.execFmin s
  | .finf => Sys2Proof.Machine.execFinf s
  | .fnan => Sys2Proof.Machine.execFnan s

end Sys2Proof.Machine
end

