-- ==== Sys2Proof/WellFormed.lean ====
section
/-!
DEFINITION. What is well formed. A command has no register field and no field with a forbidden value
(spec/30_encoding.md R40; R58: any 32-bit value is accepted), so every `Instr` is. What can be ill formed is the host's
stream: a command arrives whole (R36), a data word belongs to the `WRA` or `WRB` before it (R38, R39), and the host
cannot read `OPA` or `OPB` (spec/10_state.md R28, spec/93_implementation_defined.md U11).
-/

namespace Sys2Proof

/-- Every command is well formed: `DATA` is a 32-bit word by its type, and no other command has an operand (R40). -/
def Instr.wf : Instr → Bool
  | .wra _ | .wrb _ => true
  | .rtoa | .rtob => true
  | .add | .sub | .mul | .div | .comp | .decomp => true
  | .fadd | .fsub | .fmul | .fdiv | .feq => true
  | .fiszero | .fisinf | .fisnan | .fsgn | .fexp | .ffrac | .fpack => true
  | .fmax | .fmin | .finf | .fnan => true

/-- The two command words that a data word follows (R39). -/
def takesData (op : OpWord) : Bool := op == 0x01 || op == 0x02

/-- The host may read `RES`, `OVF` and `STATUS`, and not `OPA` or `OPB` (R28). -/
def Reg.hostReadable : Reg → Bool
  | .opa | .opb => false
  | .res | .ovf | .status => true

/-- A stream of host events the block can meet: every command whole, no stray data word, only permitted reads. -/
def streamWf : List HostEvent → Bool
  | [] => true
  | .command op :: .data _ :: rest => takesData op && streamWf rest
  | .command op :: rest => !takesData op && streamWf rest
  | .data _ :: _ => false
  | .read r :: rest => r.hostReadable && streamWf rest
  | .reset :: rest => streamWf rest

end Sys2Proof
end

