-- ==== Sys2Proof/Decode.lean ====
section
/-!
DEFINITION. The decoder of spec/30_encoding.md: total on every stream of host events, with a name for everything that is
no command, and the encoder written from the same table (R41). The unit is the word the port moves (R30: the block moves
no bytes): a command word of 8 bits and, after `WRA` and `WRB` only, a data word of 32 bits (R38, R39).
-/

namespace Sys2Proof

/-- What stands at the front of the host's stream.
* `idle`: nothing; the unit waits for a command (R115).
* `instr i rest`: the whole command `i`.
* `reserved op rest`: a reserved command word, which takes no data word (R39, R42).
* `read r rest`, `reset rest`: a host read (R28), an asserted reset (R114).
* `partialCommand op`: `WRA` or `WRB` without its data word, which R36 says the unit never sees.
* `strayData d`: a data word that belongs to no command (R38). -/
inductive Decoded where
  | idle
  | instr (i : Instr) (rest : List HostEvent)
  | reserved (op : OpWord) (rest : List HostEvent)
  | read (r : Reg) (rest : List HostEvent)
  | reset (rest : List HostEvent)
  | partialCommand (op : OpWord)
  | strayData (d : Word)
  deriving DecidableEq, Repr

/-- R41: group `000`, less the two commands of format `D`. -/
def interfaceTable : List (OpWord × Instr) := [(0x03, .rtoa), (0x04, .rtob)]

/-- R41: group `001`. -/
def integerTable : List (OpWord × Instr) :=
  [(0x20, .add), (0x21, .sub), (0x22, .mul), (0x23, .div), (0x24, .comp), (0x25, .decomp)]

/-- R41: group `010`. -/
def floatTable : List (OpWord × Instr) := [(0x40, .fadd), (0x41, .fsub), (0x42, .fmul), (0x43, .fdiv), (0x44, .feq)]

/-- R41: group `011`, classifier, fields and packing. -/
def codecTable : List (OpWord × Instr) :=
  [(0x60, .fiszero), (0x61, .fisinf), (0x62, .fisnan), (0x63, .fsgn), (0x64, .fexp), (0x65, .ffrac), (0x66, .fpack)]

/-- R41: group `011`, constants. -/
def constantTable : List (OpWord × Instr) := [(0x68, .fmax), (0x69, .fmin), (0x6A, .finf), (0x6B, .fnan)]

/-- R41: the commands of format `P`, in the table's order. -/
def plainTable : List (OpWord × Instr) := interfaceTable ++ integerTable ++ floatTable ++ codecTable ++ constantTable

/-- The command of format `P` a command word names, if it names one. -/
def decodePlain (op : OpWord) : Option Instr :=
  (plainTable.find? fun row => row.1 == op).map Prod.snd

/-- The command of format `D` a command word and its data word make (R38), if they make one. -/
def decodeData (op : OpWord) (d : Word) : Option Instr :=
  if op == 0x01 then some (.wra d) else if op == 0x02 then some (.wrb d) else none

/-- R43's first question, asked of the whole stream: which command, if any, is next.
The command word alone sets the length (R39). -/
def decode : List HostEvent → Decoded
  | [] => .idle
  | .data d :: _ => .strayData d
  | .read r :: rest => .read r rest
  | .reset :: rest => .reset rest
  | .command op :: rest =>
    if takesData op then
      match rest with
      | .data d :: rest' =>
        match decodeData op d with
        | some i => .instr i rest'
        | none => .reserved op rest
      | _ => .partialCommand op
    else
      match decodePlain op with
      | some i => .instr i rest
      | none => .reserved op rest

/-- R42, word for word: the reserved values of `OP`. -/
def isReserved (op : OpWord) : Bool :=
  op.toNat == 0x00 || (0x05 ≤ op.toNat && op.toNat ≤ 0x1F) || (0x26 ≤ op.toNat && op.toNat ≤ 0x3F) ||
  (0x45 ≤ op.toNat && op.toNat ≤ 0x5F) || op.toNat == 0x67 || (0x6C ≤ op.toNat && op.toNat ≤ 0x7F) ||
  (0x80 ≤ op.toNat && op.toNat ≤ 0xFF)

/-- R37: the group field, `GRP = OP[7:5]`. -/
def opGroup (op : OpWord) : BitVec 3 := op.extractLsb' 5 3

/-- R37: the function field, `FN = OP[4:0]`. -/
def opFunction (op : OpWord) : BitVec 5 := op.extractLsb' 0 5

/-- R39: how many bits a command has, which its command word alone decides. -/
def commandBits (op : OpWord) : Nat := if takesData op then 40 else 8

/-- How many bits one event moves over the command and data ports (R32); a read or a reset moves no command. -/
def HostEvent.portBits : HostEvent → Nat
  | .command _ => 8
  | .data _ => 32
  | .read _ | .reset => 0

/-- R41: the command word of each command. -/
def Instr.opcode : Instr → OpWord
  | .wra _ => 0x01
  | .wrb _ => 0x02
  | .rtoa => 0x03
  | .rtob => 0x04
  | .add => 0x20
  | .sub => 0x21
  | .mul => 0x22
  | .div => 0x23
  | .comp => 0x24
  | .decomp => 0x25
  | .fadd => 0x40
  | .fsub => 0x41
  | .fmul => 0x42
  | .fdiv => 0x43
  | .feq => 0x44
  | .fiszero => 0x60
  | .fisinf => 0x61
  | .fisnan => 0x62
  | .fsgn => 0x63
  | .fexp => 0x64
  | .ffrac => 0x65
  | .fpack => 0x66
  | .fmax => 0x68
  | .fmin => 0x69
  | .finf => 0x6A
  | .fnan => 0x6B

/-- R41, column "format". -/
def Instr.format : Instr → Format
  | .wra _ | .wrb _ => .D
  | .rtoa | .rtob => .P
  | .add | .sub | .mul | .div | .comp | .decomp => .P
  | .fadd | .fsub | .fmul | .fdiv | .feq => .P
  | .fiszero | .fisinf | .fisnan | .fsgn | .fexp | .ffrac | .fpack => .P
  | .fmax | .fmin | .finf | .fnan => .P

/-- R38, R40: the data word a command carries, if its format has one. -/
def Instr.dataWord : Instr → Option Word
  | .wra d | .wrb d => some d
  | .rtoa | .rtob => none
  | .add | .sub | .mul | .div | .comp | .decomp => none
  | .fadd | .fsub | .fmul | .fdiv | .feq => none
  | .fiszero | .fisinf | .fisnan | .fsgn | .fexp | .ffrac | .fpack => none
  | .fmax | .fmin | .finf | .fnan => none

/-- The words that present a command: its command word, and for `WRA` and `WRB` the data word after it (R38). -/
def encode (i : Instr) : List HostEvent :=
  .command i.opcode ::
    match i.dataWord with
    | some d => [.data d]
    | none => []

/-- The words of a row of the opcode table given as one number: bits 7..0 are the command word, and the data word's bits
count on from bit 8 (DEDUCED, unsafe: entry 11). A command word that takes no data word is presented alone (R39). -/
def tableWords (nbits w : Nat) : List HostEvent :=
  let v := w % 2 ^ nbits
  let op : OpWord := BitVec.ofNat 8 v
  if takesData op then [.command op, .data (BitVec.ofNat 32 (v / 256))] else [.command op]

/-- What the decoder reads from the bits of a row of the opcode table; none where it reads no command. -/
def decodeTableWord (nbits w : Nat) : Option Instr :=
  match decode (tableWords nbits w) with
  | .instr i _ => some i
  | .idle | .reserved _ _ | .read _ _ | .reset _ | .partialCommand _ | .strayData _ => none

end Sys2Proof
end

