-- ==== Sys2Proof/Machine/HostPort.lean ====
section
/-!
DEFINITION. The host's side of the block: a read between commands (spec/10_state.md R28), the reset event
(spec/70_reset_and_hazards.md R114), and how the step takes the next event off the host's stream.
-/

namespace Sys2Proof.Machine

/-- R28, R19, U4: what a host read of a register returns, or the stop that R28 names; `OPA` and `OPB` cannot be read (U11). -/
def hostAnswer (s : State) : Reg → Except (Fault ⊕ Refusal) Answer
  | .opa => .error (.inr (.hostCannotRead .opa))
  | .opb => .error (.inr (.hostCannotRead .opb))
  | .res => if s.resWritten then .ok (.res s.res) else .error (.inl (.unwritten .res))
  | .ovf => if s.resWritten then .ok (.ovf s.ovf) else .error (.inl (.unwritten .ovf))
  | .status => .ok (.status s.status.code)

/-- R28: a host read changes no state of the block; its answer goes to the host. -/
def hostRead (r : Reg) (s : State) : Result :=
  match hostAnswer s r with
  | .ok a => .next (s.setAnswer a)
  | .error (.inl f) => .fault f
  | .error (.inr f) => .refused f

/-- R114, R27: reset takes effect between commands. What the host goes on to do, and what it last read, are the host's
(DESIGN CHOICE, safe: entry 7). -/
def hostReset (s : State) : Result := .next { State.reset with host := s.host, answer := s.answer }

/-- DESIGN CHOICE, safe (entry 3): the state with the words of one row of the opcode table presented before whatever the host does next. -/
def presentWords (s : State) (nbits w : Nat) : State := s.withHost (tableWords nbits w ++ s.host)

end Sys2Proof.Machine
end

