-- ==== Sys2Proof/Machine/Step.lean ====
section
/-!
DEFINITION. One step: the next event of the host's stream, taken whole (spec/30_encoding.md R43,
spec/70_reset_and_hazards.md R117). A reserved command word raises `ILLEGAL` before any register is checked (R108).
-/

namespace Sys2Proof.Machine

/-- One atomic step (R117). With nothing presented the block waits for a command (R115; DEDUCED, safe: entry 4). -/
def step (s : State) : Host.Outcome State Fault Refusal :=
  match decode s.host with
  | .idle => .next s
  | .instr i rest => exec i (s.withHost rest)
  | .reserved _ rest => raise .illegal (s.withHost rest)
  | .read r rest => hostRead r (s.withHost rest)
  | .reset rest => hostReset (s.withHost rest)
  | .partialCommand op => .refused (.partialCommand op)
  | .strayData d => .refused (.strayData d)

/-- The state in which the host presents one row of the opcode table next, so that the very next step runs it. -/
def State.withFetchWord (s : State) (nbits w : Nat) : State := presentWords s nbits w

end Sys2Proof.Machine
end

