-- ==== Sys2Proof/Machine/Assembler.lean ====
section
/-!
DEFINITION. The assembler of spec/30_encoding.md R44 and R45, which stands between a program's text and the host's
stream. It is no part of the block: only what a line expands to reaches the unit. A line is a list of characters; none
means that the assembler rejects the line and emits nothing.
-/

namespace Sys2Proof.Machine

/-- DESIGN CHOICE, unsafe (entry 10): the white space that may stand around a mnemonic and its operand. -/
def isBlank (c : Char) : Bool := c == ' ' || c == '\t' || c == '\r'

/-- A string without the white space at its two ends. -/
def trim (t : List Char) : List Char := ((t.dropWhile isBlank).reverse.dropWhile isBlank).reverse

/-- R44: a comment runs from `;` to the end of the line. -/
def stripComment (t : List Char) : List Char := t.takeWhile (· != ';')

/-- R44: the mnemonics of the interface commands without an operand. -/
def interfaceMnemonics : List (List Char × Instr) := [(['R', 'T', 'O', 'A'], .rtoa), (['R', 'T', 'O', 'B'], .rtob)]

/-- R44: the mnemonics of the integer commands. -/
def integerMnemonics : List (List Char × Instr) :=
  [(['A', 'D', 'D'], .add), (['S', 'U', 'B'], .sub), (['M', 'U', 'L'], .mul), (['D', 'I', 'V'], .div),
   (['C', 'O', 'M', 'P'], .comp), (['D', 'E', 'C', 'O', 'M', 'P'], .decomp)]

/-- R44: the mnemonics of the float arithmetic commands. -/
def floatMnemonics : List (List Char × Instr) :=
  [(['F', 'A', 'D', 'D'], .fadd), (['F', 'S', 'U', 'B'], .fsub), (['F', 'M', 'U', 'L'], .fmul),
   (['F', 'D', 'I', 'V'], .fdiv), (['F', 'E', 'Q'], .feq)]

/-- R44: the mnemonics of the classifier and field commands. -/
def codecMnemonics : List (List Char × Instr) :=
  [(['F', 'I', 'S', 'Z', 'E', 'R', 'O'], .fiszero), (['F', 'I', 'S', 'I', 'N', 'F'], .fisinf),
   (['F', 'I', 'S', 'N', 'A', 'N'], .fisnan), (['F', 'S', 'G', 'N'], .fsgn), (['F', 'E', 'X', 'P'], .fexp),
   (['F', 'F', 'R', 'A', 'C'], .ffrac), (['F', 'P', 'A', 'C', 'K'], .fpack)]

/-- R44: the mnemonics of the constants. -/
def constantMnemonics : List (List Char × Instr) :=
  [(['F', 'M', 'A', 'X'], .fmax), (['F', 'M', 'I', 'N'], .fmin), (['F', 'I', 'N', 'F'], .finf),
   (['F', 'N', 'A', 'N'], .fnan)]

/-- R44: the mnemonics without an operand. -/
def plainMnemonics : List (List Char × Instr) :=
  interfaceMnemonics ++ integerMnemonics ++ floatMnemonics ++ codecMnemonics ++ constantMnemonics

/-- R44: the six hex digits past the decimal ones, in the order of their values, from ten up. -/
def hexLetters : List Char := ['A', 'B', 'C', 'D', 'E', 'F']

/-- The value of a hex digit: a decimal digit by the table of R57, or a letter, in either case, by its place among the six
(DESIGN CHOICE, unsafe: entry 10). -/
def hexDigit (c : Char) : Option Nat :=
  match digit c with
  | some d => some d.toNat
  | none => (hexLetters.findIdx? fun letter => letter == c.toUpper).map fun place => digitTen.toNat + place

/-- The value of a string of hex digits; none at a character that is no hex digit. -/
def hexValue : Nat → List Char → Option Nat
  | v, [] => some v
  | v, c :: cs =>
    match hexDigit c with
    | some d => hexValue (v * 16 + d) cs
    | none => none

/-- R44: 1 to 8 hex digits, zero-extended to 32 bits. -/
def hexOperand (t : List Char) : Option Word :=
  if t ≠ [] ∧ t.length ≤ 8 then (hexValue 0 t).map (BitVec.ofNat 32) else none

/-- The exact value of a string of decimal digits, which decides whether it fits; none where it is no such string. -/
def decimalValue (t : List Char) : Option Nat :=
  let ds := takeDigits t
  if ds.1 ≠ [] ∧ ds.2 = [] then some (digitsValue ds.1) else none

/-- R44: an unsigned decimal, `0` to `4294967295`, whose value `STR_TO_INT_32` gives (R79). -/
def decimalOperand (t : List Char) : Option Word :=
  match decimalValue t with
  | some v => if v ≤ 4294967295 then strToInt 32 t else none
  | none => none

/-- R44: a negative decimal, `-1` to `-2147483648`, taken as the complement (R63) of its magnitude. -/
def negativeOperand (t : List Char) : Option Word :=
  match decimalValue t with
  | some v => if 1 ≤ v ∧ v ≤ 2147483648 then (strToInt 32 t).map fun m => (compl m).1 else none
  | none => none

/-- R44: the operand `<word>` of `WRA` and `WRB`. -/
def wordOperand : List Char → Option Word
  | '0' :: 'x' :: cs => hexOperand cs
  | '-' :: cs => negativeOperand cs
  | cs => decimalOperand cs

/-- R45 `LD2 <w1>, <w2>`: the text before and after the comma. -/
def splitComma (t : List Char) : Option (List Char × List Char) :=
  match t.dropWhile (· != ',') with
  | _ :: after => some (trim (t.takeWhile (· != ',')), trim after)
  | [] => none

/-- R45 `LD2`: `WRA` then `WRB`. -/
def assembleLd2 (arg : List Char) : Option (List HostEvent) :=
  match splitComma arg with
  | some ts =>
    match wordOperand ts.1, wordOperand ts.2 with
    | some a, some b => some (encode (.wra a) ++ encode (.wrb b))
    | _, _ => none
  | none => none

/-- R44, R45: a mnemonic in capitals and the text after it. -/
def assembleParts (mnemonic arg : List Char) : Option (List HostEvent) :=
  match plainMnemonics.find? fun row => row.1 == mnemonic with
  | some row => if arg = [] then some (encode row.2) else none
  | none =>
    if mnemonic = ['W', 'R', 'A'] then (wordOperand arg).map fun d => encode (.wra d)
    else if mnemonic = ['W', 'R', 'B'] then (wordOperand arg).map fun d => encode (.wrb d)
    else if mnemonic = ['W', 'R', 'A', 'F'] then (enc arg).map fun d => encode (.wra d)
    else if mnemonic = ['W', 'R', 'B', 'F'] then (enc arg).map fun d => encode (.wrb d)
    else if mnemonic = ['L', 'D', '2'] then assembleLd2 arg
    else none

/-- R44, R45: one line of a program. A line with nothing on it, or a comment only, emits nothing (DESIGN CHOICE, unsafe:
entry 10). -/
def assembleLine (line : List Char) : Option (List HostEvent) :=
  let t := trim (stripComment line)
  if t = [] then some []
  else assembleParts ((t.takeWhile (!isBlank ·)).map Char.toUpper) (trim (t.dropWhile (!isBlank ·)))

end Sys2Proof.Machine
end

