-- ==== Sys2Proof/Safety.lean ====
section
/-!
DEFINITION. What counts as a safe run, and the terms claims use: a command whose operands are written
(spec/70_reset_and_hazards.md R116), the observation of a run (R120), the invariant of the state, what it means that
the content of an unwritten register is never seen (spec/10_state.md R19), and the shapes the rules of the commands share.
-/

namespace Sys2Proof.Machine

/-- R116: every register the command reads has been written. -/
def Ready (i : Instr) (s : State) : Prop := ∀ r ∈ reads i, s.written r = true

/-- `STATUS` tells the truth (R20): `NONE` only while nothing has been written, `OK` only when something has, `DIVZERO`
only with both operands written and a zero divisor standing in `OPB`. -/
def StatusTruthful (s : State) : Prop :=
  (s.status = .none → s.opaWritten = false ∧ s.opbWritten = false ∧ s.resWritten = false) ∧
  (s.status = .ok → s.opaWritten = true ∨ s.opbWritten = true ∨ s.resWritten = true) ∧
  (s.status = .divzero → s.opaWritten = true ∧ s.opbWritten = true ∧ s.opb = 0)

/-- Two states that agree on everything but the contents of unwritten registers. -/
structure AgreeOnWritten (s t : State) : Prop where
  opaWritten : s.opaWritten = t.opaWritten
  opbWritten : s.opbWritten = t.opbWritten
  resWritten : s.resWritten = t.resWritten
  opa : s.opaWritten = true → s.opa = t.opa
  opb : s.opbWritten = true → s.opb = t.opb
  res : s.resWritten = true → s.res = t.res
  ovf : s.resWritten = true → s.ovf = t.ovf
  status : s.status = t.status
  host : s.host = t.host
  answer : s.answer = t.answer

/-- Two outcomes that agree: next states that agree on what is written, or the same fault, or the same refusal. -/
def OutcomesAgree : Result → Result → Prop
  | .next s, .next t => AgreeOnWritten s t
  | .fault f, .fault g => f = g
  | .refused f, .refused g => f = g
  | .next _, .fault _ | .next _, .refused _ => False
  | .fault _, .next _ | .fault _, .refused _ => False
  | .refused _, .next _ | .refused _, .fault _ => False

/-- An outcome with `OVF` blotted out of its next state. -/
def forgetOvf : Result → Result
  | .next t => .next { t with ovf := false }
  | .fault f => .fault f
  | .refused r => .refused r

/-- A state as the block holds it, the host's side left out: what R120 observes of a run's end. -/
structure Registers where
  opa : Word
  opb : Word
  res : Word
  ovf : Bool
  status : Status
  opaWritten : Bool
  opbWritten : Bool
  resWritten : Bool
  deriving DecidableEq, Repr

/-- R120: the final registers with their written bits. -/
def State.registers (s : State) : Registers where
  opa := s.opa
  opb := s.opb
  res := s.res
  ovf := s.ovf
  status := s.status
  opaWritten := s.opaWritten
  opbWritten := s.opbWritten
  resWritten := s.resWritten

/-- How a run ends (R120): its last event done, or in the fault state, or at a stream no host presents, or not yet. -/
inductive RunEnd where
  | done
  | fault (f : Fault)
  | refused (r : Refusal)
  | running
  deriving DecidableEq, Repr

/-- R120: the observation of a run. -/
structure Observation where
  final : Registers
  statuses : List Status
  ended : RunEnd
  deriving DecidableEq, Repr

/-- R120: `STATUS` is observed after a command, and not after a host read or a reset (DEDUCED, safe: entry 14). -/
def statusAfter (e : HostEvent) (t : State) : List Status :=
  match e with
  | .command _ | .data _ => [t.status]
  | .read _ | .reset => []

/-- R120: the observation of at most the given number of steps.
A fault writes nothing (R21), so the registers it leaves are those before it.
DESIGN CHOICE, safe (entry 14): the event that faults or is refused adds no entry of its own to the list of `STATUS`
values; the `STATUS` that stands then is the one in `final`. -/
def observeSteps : Nat → State → Observation
  | k, s =>
    match s.host with
    | [] => ⟨s.registers, [], .done⟩
    | e :: _ =>
      match k with
      | 0 => ⟨s.registers, [], .running⟩
      | k + 1 =>
        match step s with
        | .next t => ⟨(observeSteps k t).final, statusAfter e t ++ (observeSteps k t).statuses, (observeSteps k t).ended⟩
        | .fault f => ⟨s.registers, [], .fault f⟩
        | .refused r => ⟨s.registers, [], .refused r⟩

/-- R120: the observation of a run, the whole of the host's stream.
Every step takes at least one event, so as many steps as events are enough. -/
def observe (s : State) : Observation := observeSteps s.host.length s

/-- A safe run ends with its last event done. -/
def SafeRun (s : State) : Prop := (observe s).ended = .done

/-- Which registers a program is known to have written: the static side of R116. -/
structure Known where
  opa : Bool
  opb : Bool
  res : Bool
  deriving DecidableEq, Repr

/-- What is known of a register; `STATUS` always holds a value. -/
def Known.written (k : Known) : Reg → Bool
  | .opa => k.opa
  | .opb => k.opb
  | .res | .ovf => k.res
  | .status => true

/-- What is known after a command. `DIV` may raise (R71), so it is not known to have written `RES`. -/
def Known.after (k : Known) : Instr → Known
  | .wra _ | .rtoa => { k with opa := true }
  | .wrb _ | .rtob => { k with opb := true }
  | .div => k
  | .add | .sub | .mul | .comp | .decomp => { k with res := true }
  | .fadd | .fsub | .fmul | .fdiv | .feq => { k with res := true }
  | .fiszero | .fisinf | .fisnan | .fsgn | .fexp | .ffrac | .fpack => { k with res := true }
  | .fmax | .fmin | .finf | .fnan => { k with res := true }

/-- R116: before each command, the program has written every register that the command reads. -/
def bootOk : Known → List Instr → Bool
  | _, [] => true
  | k, i :: is => (reads i).all k.written && bootOk (k.after i) is

/-- A program as the host presents it (L3: a straight line of commands). -/
def present (is : List Instr) : List HostEvent := is.flatMap encode

/-- The host is presenting a program whose boot requirements are met by what the block has written (R116). -/
def BootReady (s : State) : Prop :=
  ∃ (is : List Instr) (k : Known), s.host = present is ∧ (∀ r, k.written r = true → s.written r = true) ∧
    bootOk k is = true

/-- R78: a decimal string without and with its sign. -/
def withSign (negative : Bool) (t : List Char) : List Char := if negative then '-' :: t else t

/-- The shape R41 gives a command that reads both operands and raises nothing: its command word, its faults in the order
R43 checks them, and its completion, which writes `RES`, `OVF` and `STATUS` and leaves all the rest. -/
def BinaryCommand (op : OpWord) (i : Instr) (r : Word → Word → Word) (v : Word → Word → Bool) : Prop :=
  (∀ rest, decode (.command op :: rest) = .instr i rest) ∧
  (∀ s : State, s.opaWritten = false → exec i s = .fault (.unwritten .opa)) ∧
  (∀ s : State, s.opaWritten = true → s.opbWritten = false → exec i s = .fault (.unwritten .opb)) ∧
  (∀ s : State, s.opaWritten = true → s.opbWritten = true → exec i s =
    .next { s with res := r s.opa s.opb, ovf := v s.opa s.opb, resWritten := true, status := .ok })

/-- The shape R41 gives a command that reads operand A alone and raises nothing. -/
def UnaryCommand (op : OpWord) (i : Instr) (r : Word → Word) (v : Word → Bool) : Prop :=
  (∀ rest, decode (.command op :: rest) = .instr i rest) ∧
  (∀ s : State, s.opaWritten = false → exec i s = .fault (.unwritten .opa)) ∧
  (∀ s : State, s.opaWritten = true → exec i s =
    .next { s with res := r s.opa, ovf := v s.opa, resWritten := true, status := .ok })

/-- The shape R41 gives a constant: it reads nothing and completes in every state. -/
def ConstantCommand (op : OpWord) (i : Instr) (r : Word) : Prop :=
  (∀ rest, decode (.command op :: rest) = .instr i rest) ∧
  (∀ s : State, exec i s = .next { s with res := r, ovf := false, resWritten := true, status := .ok })

end Sys2Proof.Machine
end

