-- ==== Sys2Proof/Certificates/Slice0/Obligations.lean ====
section
/-!
DEFINITION. The statements about the Study-CS arithmetic core, each from the rules of spec/ its docstring cites.
A record update `{ s with … }` in a conclusion names everything a command changes, so it states the frame as well.
-/

open Sys2Proof Sys2Proof.Machine

/-! ### Interface commands -/

/-- R58, R59: `WRA` and `WRB` complete in every state, write the data word unchanged, and leave all the rest. -/
def Obligations.OperandWritesComplete : Prop :=
  (∀ d rest, decode (.command 0x01 :: .data d :: rest) = .instr (.wra d) rest) ∧
  (∀ d rest, decode (.command 0x02 :: .data d :: rest) = .instr (.wrb d) rest) ∧
  (∀ d (s : State), exec (.wra d) s = .next { s with opa := d, opaWritten := true, status := .ok }) ∧
  (∀ d (s : State), exec (.wrb d) s = .next { s with opb := d, opbWritten := true, status := .ok })

/-- R60, R61: `RTOA` and `RTOB` copy `RES` to an operand, and fault while no computing command has completed. -/
def Obligations.ResultFeedsOperands : Prop :=
  (∀ rest, decode (.command 0x03 :: rest) = .instr .rtoa rest) ∧
  (∀ rest, decode (.command 0x04 :: rest) = .instr .rtob rest) ∧
  (∀ s : State, s.resWritten = false →
    exec .rtoa s = .fault (.unwritten .res) ∧ exec .rtob s = .fault (.unwritten .res)) ∧
  (∀ s : State, s.resWritten = true →
    exec .rtoa s = .next { s with opa := s.res, opaWritten := true, status := .ok } ∧
    exec .rtob s = .next { s with opb := s.res, opbWritten := true, status := .ok })

/-! ### Integer engine, at every width -/

/-- R62: the ripple adder's loop computes the sum modulo `2^n` and the carry out of it. -/
def Obligations.RippleAdderIsExact : Prop :=
  ∀ (n : Nat) (a b : BitVec n), adder a b = (BitVec.ofNat n (a.toNat + b.toNat), decide (2 ^ n ≤ a.toNat + b.toNat))

/-- R63, R64: the complement negates, with a carry exactly for zero, and the decomplement is its inverse and its equal.
The carry clause needs a width of at least one bit: an empty string has no top position to carry out of. -/
def Obligations.ComplementAndInverse : Prop :=
  ∀ (n : Nat) (a : BitVec n),
    (compl a).1 = BitVec.ofNat n (2 ^ n - a.toNat) ∧ (0 < n → ((compl a).2 = true ↔ a = 0)) ∧
    decompl a = (compl a).1 ∧ decompl (compl a).1 = a

/-- R65: the subtractor gives the difference modulo `2^n`, and a carry exactly when `b ≠ 0` and `a ≥ b`. -/
def Obligations.SubtractorLaw : Prop :=
  ∀ (n : Nat) (a b : BitVec n),
    (subr a b).1 = a - b ∧ ((subr a b).2 = true ↔ b ≠ 0 ∧ b.toNat ≤ a.toNat)

/-- R66: shift-and-add gives the product modulo `2^n`. -/
def Obligations.ShiftAddMultiplies : Prop :=
  ∀ (n : Nat) (a b : BitVec n), mulr a b = BitVec.ofNat n (a.toNat * b.toNat)

/-- R67: restoring division gives the floor of the quotient, for every nonzero divisor. -/
def Obligations.RestoringDivides : Prop :=
  ∀ (n : Nat) (a b : BitVec n), b ≠ 0 → (divr a b).toNat = a.toNat / b.toNat

/-! ### Integer commands -/

/-- R68: `ADD`. -/
def Obligations.AddResult : Prop :=
  BinaryCommand 0x20 .add (fun a b => a + b) (fun a b => decide (2 ^ 32 ≤ a.toNat + b.toNat))

/-- R69: `SUB`. -/
def Obligations.SubResult : Prop :=
  BinaryCommand 0x21 .sub (fun a b => a - b) (fun a b => decide (b ≠ 0 ∧ b.toNat ≤ a.toNat))

/-- R70: `MUL`. -/
def Obligations.MulResult : Prop :=
  BinaryCommand 0x22 .mul (fun a b => a * b) (fun _ _ => false)

/-- R71: `DIV` gives the floor of the quotient; a zero divisor raises `DIVZERO`, after both operands are checked. -/
def Obligations.DivResult : Prop :=
  (∀ rest, decode (.command 0x23 :: rest) = .instr .div rest) ∧
  (∀ s : State, s.opaWritten = false → exec .div s = .fault (.unwritten .opa)) ∧
  (∀ s : State, s.opaWritten = true → s.opbWritten = false → exec .div s = .fault (.unwritten .opb)) ∧
  (∀ s : State, s.opaWritten = true → s.opbWritten = true → s.opb = 0 →
    exec .div s = .next { s with status := .divzero }) ∧
  (∀ s : State, s.opaWritten = true → s.opbWritten = true → s.opb ≠ 0 → exec .div s =
    .next { s with res := BitVec.ofNat 32 (s.opa.toNat / s.opb.toNat), ovf := false, resWritten := true, status := .ok })

/-- R72, R73: `COMP` and `DECOMP` negate; `OVF` tells zero after `COMP` and is 0 after `DECOMP`. -/
def Obligations.CompDecompResults : Prop :=
  UnaryCommand 0x24 .comp (fun a => -a) (fun a => decide (a = 0)) ∧
  UnaryCommand 0x25 .decomp (fun a => -a) (fun _ => false)

/-! ### Codec commands -/

/-- R81, R82, R83: the three tests, by the words each is true of. -/
def Obligations.ClassifierResults : Prop :=
  UnaryCommand 0x60 .fiszero (fun x => if x = 0x00000000 ∨ x = 0x80000000 then 1 else 0) (fun _ => false) ∧
  UnaryCommand 0x61 .fisinf (fun x => if x = 0x7F800000 ∨ x = 0xFF800000 then 1 else 0) (fun _ => false) ∧
  UnaryCommand 0x62 .fisnan (fun x => if 0x7F800000 < x.toNat % 2 ^ 31 then 1 else 0) (fun _ => false)

/-- R76: each class by its exponent and fraction, and each word in exactly one of them. -/
def Obligations.ClassesPartitionWords : Prop :=
  ∀ x : Word,
    (isZero x = true ↔ (expOf x).toNat = 0 ∧ (fracOf x).toNat = 0) ∧
    (isInf x = true ↔ (expOf x).toNat = 255 ∧ (fracOf x).toNat = 0) ∧
    (isNan x = true ↔ (expOf x).toNat = 255 ∧ (fracOf x).toNat ≠ 0) ∧
    (isZero x).toNat + (isInf x).toNat + (isNan x).toNat + (isOrd x).toNat = 1

/-- R84, R85, R86: the three fields, zero-extended. -/
def Obligations.FieldExtraction : Prop :=
  UnaryCommand 0x63 .fsgn (fun x => BitVec.ofNat 32 (x.toNat / 2 ^ 31)) (fun _ => false) ∧
  UnaryCommand 0x64 .fexp (fun x => BitVec.ofNat 32 (x.toNat / 2 ^ 23 % 2 ^ 8)) (fun _ => false) ∧
  UnaryCommand 0x65 .ffrac (fun x => BitVec.ofNat 32 (x.toNat % 2 ^ 23)) (fun _ => false)

/-- R87: `FPACK` uses `OPA[8:0]` and `OPB[22:0]` and nothing else, and rebuilds a word from the outputs of `FSGN`,
`FEXP` and `FFRAC`. -/
def Obligations.FpackBuildsWord : Prop :=
  BinaryCommand 0x66 .fpack
    (fun a b => BitVec.ofNat 32 (a.toNat / 2 ^ 8 % 2 * 2 ^ 31 + a.toNat % 2 ^ 8 * 2 ^ 23 + b.toNat % 2 ^ 23))
    (fun _ _ => false) ∧
  (∀ x : Word, packOperands (boolWord (sgnOf x) * 256 + fieldWord (expOf x)) (fieldWord (fracOf x)) = x)

/-- R88 to R91: the four constants complete in every state, and decode to what the rules say. -/
def Obligations.ConstantsComplete : Prop :=
  ConstantCommand 0x68 .fmax 0x7F7FFFFF ∧ ConstantCommand 0x69 .fmin 0x80800001 ∧
  ConstantCommand 0x6A .finf 0x7F800000 ∧ ConstantCommand 0x6B .fnan 0x7FFFFFFF ∧
  val 0x7F7FFFFF = .finite 340282346638528859811704183484516925440 ∧
  val 0x80800001 = .finite (-8388609 / 2 ^ 149) ∧ isInf 0x7F800000 = true ∧ isNan 0x7FFFFFFF = true

/-- R77: the exact value of every word, with an integer power of two. -/
def Obligations.DecodedValue : Prop :=
  ∀ x : Word,
    (isZero x = true → val x = .finite 0) ∧ (isNan x = true → val x = .nan) ∧
    (isInf x = true → sgnOf x = false → val x = .posInf) ∧ (isInf x = true → sgnOf x = true → val x = .negInf) ∧
    (isOrd x = true →
      val x = .finite ((if sgnOf x then -1 else 1) * (mantOf x : ℚ) * (2 : ℚ) ^ (((expOf x).toNat : ℤ) - 127 - 23)))

/-! ### Decimal strings -/

/-- R79: the digit-by-digit conversion gives the decimal value modulo `2^n`, and nothing but a string of digits has one.
A digit is 4 bits wide (R57), so the width is at least 4. -/
def Obligations.DecimalStringValue : Prop :=
  ∀ (n : Nat) (t : List Char), 4 ≤ n →
    (∀ v, decimalValue t = some v → strToInt n t = some (BitVec.ofNat n v)) ∧
    (decimalValue t = none → strToInt n t = none)

/-- R78's domain: the encoder accepts exactly an optional sign, at least one digit, and optionally a point with digits. -/
def Obligations.EncoderDomain : Prop :=
  ∀ t : List Char, (enc t).isSome = true ↔
    ∃ ip fp : List Char, ip ≠ [] ∧ (∀ c ∈ ip ++ fp, (digit c).isSome = true) ∧
      (t = ip ∨ t = '-' :: ip ∨ t = ip ++ '.' :: fp ∨ t = '-' :: (ip ++ '.' :: fp))

/-- R78's value. A string of the grammar encodes as its digits' value over `10^k`, by its magnitude and `PACK`, or as a
zero that keeps its sign; the exponent is the floor of the binary logarithm, the mantissa has 24 bits, and the magnitude is
less than half a unit in the last place below the exact value and at most half a unit above it, so a tie goes up. -/
def Obligations.EncoderRoundsHalfUp : Prop :=
  (∀ (sg : Bool) (ip fp : List Char) (v : Nat) (w : Word), ip ≠ [] → decimalValue (ip ++ fp) = some v →
    w = (if v = 0 then if sg then 0x80000000 else 0x00000000
      else (pack (encodeMagnitude sg v (10 ^ fp.length))).1) →
    enc (withSign sg (ip ++ '.' :: fp)) = some w ∧ (fp = [] → enc (withSign sg ip) = some w)) ∧
  ∀ (sg : Bool) (p q : Nat) (u : Unpacked), 0 < p → 0 < q → u = encodeMagnitude sg p q →
    (2 : ℚ) ^ floorLog2 p q ≤ (p : ℚ) / q ∧ (p : ℚ) / q < (2 : ℚ) ^ (floorLog2 p q + 1) ∧
    u.sign = sg ∧ 2 ^ 23 ≤ u.mant ∧ u.mant < 2 ^ 24 ∧
    (p : ℚ) / q - (2 : ℚ) ^ (floorLog2 p q - 24) < (u.mant : ℚ) * (2 : ℚ) ^ (u.exp - 150) ∧
    (u.mant : ℚ) * (2 : ℚ) ^ (u.exp - 150) ≤ (p : ℚ) / q + (2 : ℚ) ^ (floorLog2 p q - 24)

/-- R77, R78: an integer of fewer than 25 bits is encoded exactly, with either sign. -/
def Obligations.EncoderExactOnIntegers : Prop :=
  ∀ (t : List Char) (v : Nat), decimalValue t = some v → v < 2 ^ 24 →
    ∃ w w' : Word, enc t = some w ∧ enc ('-' :: t) = some w' ∧ val w = .finite v ∧ val w' = .finite (-(v : ℚ))

/-- R44: the decimal operands of `WRA` and `WRB`, their values and their ranges. -/
def Obligations.AssemblerDecimalOperands : Prop :=
  ∀ (t : List Char) (v : Nat), decimalValue t = some v →
    (v ≤ 4294967295 → wordOperand t = some (BitVec.ofNat 32 v)) ∧ (4294967295 < v → wordOperand t = none) ∧
    (1 ≤ v → v ≤ 2147483648 → wordOperand ('-' :: t) = some (-(BitVec.ofNat 32 v))) ∧
    (v = 0 ∨ 2147483648 < v → wordOperand ('-' :: t) = none)

/-! ### Float datapath -/

/-- R93: the rounding shift rounds up: it is the least number of units that covers the value. -/
def Obligations.RoundingShiftCovers : Prop :=
  ∀ v k : Nat,
    shrr v 0 = v ∧ (v % 2 ^ k = 0 → shrr v k = v / 2 ^ k) ∧ (v % 2 ^ k ≠ 0 → shrr v k = v / 2 ^ k + 1) ∧
    (0 < v → v < 2 ^ k → shrr v k = 1) ∧ v ≤ shrr v k * 2 ^ k ∧ shrr v k * 2 ^ k < v + 2 ^ k

/-- R94: above the exponent range an infinity with the flag, below it a zero, within it a word with exactly the sign, the
exponent and the mantissa given. -/
def Obligations.PackRanges : Prop :=
  ∀ (sg : Bool) (e : ℤ) (mr : Nat), 2 ^ 23 ≤ mr → mr < 2 ^ 24 →
    (255 ≤ e → pack ⟨sg, e, mr⟩ = (if sg then 0xFF800000 else 0x7F800000, true)) ∧
    (e < 0 → pack ⟨sg, e, mr⟩ = (if sg then 0x80000000 else 0x00000000, false)) ∧
    (0 ≤ e → e < 255 →
      sgnOf (pack ⟨sg, e, mr⟩).1 = sg ∧ ((expOf (pack ⟨sg, e, mr⟩).1).toNat : ℤ) = e ∧
      mantOf (pack ⟨sg, e, mr⟩).1 = mr ∧ (pack ⟨sg, e, mr⟩).2 = false)

/-- R95: alignment is to the larger exponent, by the rounding shift of the other mantissa, whose bounds the rule gives. -/
def Obligations.AlignmentBounds : Prop :=
  (∀ ea ma eb mb : Nat, 2 ^ 23 ≤ ma → ma < 2 ^ 24 → 2 ^ 23 ≤ mb → mb < 2 ^ 24 →
    align ea ma eb mb = (max ea eb, shrr ma (max ea eb - ea), shrr mb (max ea eb - eb)) ∧
    (align ea ma eb mb).2.1 < 2 ^ 24 ∧ (align ea ma eb mb).2.2 < 2 ^ 24 ∧
    (eb < ea → (align ea ma eb mb).2.2 ≤ 2 ^ 23) ∧ (ea < eb → (align ea ma eb mb).2.1 ≤ 2 ^ 23) ∧
    (eb + 24 ≤ ea → (align ea ma eb mb).2.2 = 1) ∧ (ea + 24 ≤ eb → (align ea ma eb mb).2.1 = 1)) ∧
  faddFn 0x3F800000 0x0D800000 = (0x3F800001, false)

/-- R96: normalization brings the leading 1 to bit 23 and takes the shift off the exponent, and loses no bit. -/
def Obligations.NormalizationShift : Prop :=
  ∀ (e : ℤ) (mr : Nat), 0 < mr → mr < 2 ^ 24 →
    2 ^ 23 ≤ (norm e mr).2 ∧ (norm e mr).2 < 2 ^ 24 ∧ ∃ k : Nat, (norm e mr).1 = e - k ∧ (norm e mr).2 = mr * 2 ^ k

/-- R92: each arithmetic command gives the canonical NaN for a NaN operand, and no other NaN ever. -/
def Obligations.NanResultsCanonical : Prop :=
  ∀ f ∈ [faddFn, fsubFn, fmulFn, fdivFn], ∀ a b : Word,
    (isNan a = true ∨ isNan b = true → f a b = (0x7FFFFFFF, false)) ∧ (isNan (f a b).1 = true → (f a b).1 = 0x7FFFFFFF)

/-- R97: `FADD`, by the class of each operand; ordinary operands by their aligned mantissas. -/
def Obligations.FaddMeaning : Prop :=
  BinaryCommand 0x40 .fadd (fun a b => (faddFn a b).1) (fun a b => (faddFn a b).2) ∧
  ∀ a b : Word,
    (isNan a = true ∨ isNan b = true → faddFn a b = (0x7FFFFFFF, false)) ∧
    (isInf a = true → isInf b = true → sgnOf a = sgnOf b → faddFn a b = (a, false)) ∧
    (isInf a = true → isInf b = true → sgnOf a ≠ sgnOf b → faddFn a b = (0x7FFFFFFF, false)) ∧
    (isInf a = true → isInf b = false → isNan b = false → faddFn a b = (a, false)) ∧
    (isInf b = true → isInf a = false → isNan a = false → faddFn a b = (b, false)) ∧
    (isZero a = true → isZero b = true →
      faddFn a b = (if sgnOf a = true ∧ sgnOf b = true then 0x80000000 else 0x00000000, false)) ∧
    (isZero a = true → isOrd b = true → faddFn a b = (b, false)) ∧
    (isOrd a = true → isZero b = true → faddFn a b = (a, false)) ∧
    (isOrd a = true → isOrd b = true → ∀ e ma mb : Nat,
      e = max (expOf a).toNat (expOf b).toNat → ma = shrr (mantOf a) (e - (expOf a).toNat) →
      mb = shrr (mantOf b) (e - (expOf b).toNat) →
        (sgnOf a = sgnOf b → ma + mb < 2 ^ 24 → faddFn a b = pack ⟨sgnOf a, e, ma + mb⟩) ∧
        (sgnOf a = sgnOf b → 2 ^ 24 ≤ ma + mb → faddFn a b = pack ⟨sgnOf a, e + 1, shrr (ma + mb) 1⟩) ∧
        (sgnOf a ≠ sgnOf b → ma = mb → faddFn a b = (0x00000000, false)) ∧
        (sgnOf a ≠ sgnOf b → mb < ma →
          faddFn a b = pack ⟨sgnOf a, (norm e (ma - mb)).1, (norm e (ma - mb)).2⟩) ∧
        (sgnOf a ≠ sgnOf b → ma < mb →
          faddFn a b = pack ⟨sgnOf b, (norm e (mb - ma)).1, (norm e (mb - ma)).2⟩))

/-- R98: `FSUB` adds the second operand with its sign bit flipped, so an ordinary word less itself is `+0`. -/
def Obligations.FsubMeaning : Prop :=
  BinaryCommand 0x41 .fsub (fun a b => (faddFn a (b ^^^ 0x80000000)).1) (fun a b => (faddFn a (b ^^^ 0x80000000)).2) ∧
  ∀ x : Word, isOrd x = true → faddFn x (x ^^^ 0x80000000) = (0x00000000, false)

/-- R99: `FMUL`, by the class of each operand; ordinary operands by the exact product of their mantissas. -/
def Obligations.FmulMeaning : Prop :=
  BinaryCommand 0x42 .fmul (fun a b => (fmulFn a b).1) (fun a b => (fmulFn a b).2) ∧
  ∀ a b : Word,
    (isNan a = true ∨ isNan b = true → fmulFn a b = (0x7FFFFFFF, false)) ∧
    (isInf a = true → isZero b = true → fmulFn a b = (0x7FFFFFFF, false)) ∧
    (isZero a = true → isInf b = true → fmulFn a b = (0x7FFFFFFF, false)) ∧
    (∀ sg : Bool, sg = (sgnOf a ^^ sgnOf b) →
      (isInf a = true → isInf b = true ∨ isOrd b = true →
        fmulFn a b = (if sg then 0xFF800000 else 0x7F800000, false)) ∧
      (isOrd a = true → isInf b = true → fmulFn a b = (if sg then 0xFF800000 else 0x7F800000, false)) ∧
      (isZero a = true → isZero b = true ∨ isOrd b = true →
        fmulFn a b = (if sg then 0x80000000 else 0x00000000, false)) ∧
      (isOrd a = true → isZero b = true → fmulFn a b = (if sg then 0x80000000 else 0x00000000, false)) ∧
      (isOrd a = true → isOrd b = true → ∀ (e : ℤ) (p : Nat),
        e = ((expOf a).toNat : ℤ) + ((expOf b).toNat : ℤ) - 127 → p = mantOf a * mantOf b →
          (2 ^ 47 ≤ p → fmulFn a b = pack ⟨sg, e + 1, shrr p 24⟩) ∧
          (p < 2 ^ 47 → shrr p 23 ≠ 2 ^ 24 → fmulFn a b = pack ⟨sg, e, shrr p 23⟩) ∧
          (p < 2 ^ 47 → shrr p 23 = 2 ^ 24 → fmulFn a b = pack ⟨sg, e + 1, 2 ^ 23⟩)))

/-- R100: `FDIV`, by the class of each operand; ordinary operands by the truncated quotient of their mantissas. -/
def Obligations.FdivMeaning : Prop :=
  BinaryCommand 0x43 .fdiv (fun a b => (fdivFn a b).1) (fun a b => (fdivFn a b).2) ∧
  ∀ a b : Word,
    (isNan a = true ∨ isNan b = true → fdivFn a b = (0x7FFFFFFF, false)) ∧
    (isZero a = true → isZero b = true → fdivFn a b = (0x7FFFFFFF, false)) ∧
    (isInf a = true → isInf b = true → fdivFn a b = (0x7FFFFFFF, false)) ∧
    (∀ sg : Bool, sg = (sgnOf a ^^ sgnOf b) →
      (isInf a = true ∨ isOrd a = true → isZero b = true →
        fdivFn a b = (if sg then 0xFF800000 else 0x7F800000, false)) ∧
      (isInf a = true → isOrd b = true → fdivFn a b = (if sg then 0xFF800000 else 0x7F800000, false)) ∧
      (isZero a = true ∨ isOrd a = true → isInf b = true →
        fdivFn a b = (if sg then 0x80000000 else 0x00000000, false)) ∧
      (isZero a = true → isOrd b = true → fdivFn a b = (if sg then 0x80000000 else 0x00000000, false)) ∧
      (isOrd a = true → isOrd b = true →
        (mantOf b ≤ mantOf a → fdivFn a b =
          pack ⟨sg, ((expOf a).toNat : ℤ) - (expOf b).toNat + 127, mantOf a * 2 ^ 23 / mantOf b⟩) ∧
        (mantOf a < mantOf b → fdivFn a b =
          pack ⟨sg, ((expOf a).toNat : ℤ) - (expOf b).toNat + 126, mantOf a * 2 ^ 24 / mantOf b⟩)))

/-- R101: `FEQ` compares bits: a NaN equals itself, and the two zeros differ. -/
def Obligations.FeqResult : Prop :=
  BinaryCommand 0x44 .feq (fun a b => if a = b then 1 else 0) (fun _ _ => false)

/-- R97, R99: swapping the operands of `FADD` or of `FMUL` changes neither the result nor the flag. -/
def Obligations.FaddFmulCommute : Prop :=
  ∀ a b : Word, faddFn a b = faddFn b a ∧ fmulFn a b = fmulFn b a

/-- R95, R97: a sum of equal signs is never below the exact sum, and less than two units of its larger operand above. -/
def Obligations.FaddSameSignBound : Prop :=
  ∀ (a b : Word) (u : Unpacked) (d : Nat), isOrd a = true → isOrd b = true → sgnOf a = sgnOf b →
    (expOf a).toNat = (expOf b).toNat + d → addOrdinary a b = some u →
      ∃ k : Nat, k ≤ 1 ∧ u.exp = (expOf a).toNat + k ∧ mantOf a * 2 ^ d + mantOf b ≤ u.mant * 2 ^ (d + k) ∧
        u.mant * 2 ^ (d + k) < mantOf a * 2 ^ d + mantOf b + 2 ^ (d + 1)

/-- R99: a product is never below the exact product, and less than one unit in its last place above. -/
def Obligations.FmulRoundsUp : Prop :=
  ∀ a b : Word, isOrd a = true → isOrd b = true →
    ∃ k : Nat, k ≤ 1 ∧ (mulOrdinary a b).exp = ((expOf a).toNat : ℤ) + (expOf b).toNat - 127 + k ∧
      mantOf a * mantOf b ≤ (mulOrdinary a b).mant * 2 ^ (23 + k) ∧
      (mulOrdinary a b).mant * 2 ^ (23 + k) < mantOf a * mantOf b + 2 ^ (23 + k)

/-- R100: a quotient is never above the exact quotient, and less than one unit in its last place below. -/
def Obligations.FdivTruncates : Prop :=
  ∀ a b : Word, isOrd a = true → isOrd b = true →
    ∃ k : Nat, k ≤ 1 ∧ (divOrdinary a b).exp = ((expOf a).toNat : ℤ) - (expOf b).toNat + 127 - k ∧
      (divOrdinary a b).mant * mantOf b ≤ mantOf a * 2 ^ (23 + k) ∧
      mantOf a * 2 ^ (23 + k) < ((divOrdinary a b).mant + 1) * mantOf b

/-- R94, R97, R99, R100: what the four arithmetic commands hand to `PACK` always has its leading 1 at bit 23. -/
def Obligations.PackInputsNormalized : Prop :=
  ∀ a b : Word, isOrd a = true → isOrd b = true →
    (∀ u, addOrdinary a b = some u → 2 ^ 23 ≤ u.mant ∧ u.mant < 2 ^ 24) ∧
    (2 ^ 23 ≤ (mulOrdinary a b).mant ∧ (mulOrdinary a b).mant < 2 ^ 24) ∧
    (2 ^ 23 ≤ (divOrdinary a b).mant ∧ (divOrdinary a b).mant < 2 ^ 24)

/-- R18: the four arithmetic commands set `OVF` exactly when ordinary operands give an infinity. -/
def Obligations.FloatOverflowFlag : Prop :=
  ∀ f ∈ [faddFn, fsubFn, fmulFn, fdivFn], ∀ a b : Word,
    (f a b).2 = true ↔ isOrd a = true ∧ isOrd b = true ∧ isInf (f a b).1 = true

/-! ### BitSeq primitives -/

/-- R54: the first bit index is the place of the first set bit from the top, and the width for zero. -/
def Obligations.FirstBitIndex : Prop :=
  ∀ (n : Nat) (a : BitVec n),
    (a = 0 → fbi a = n) ∧
    (a ≠ 0 → fbi a < n ∧ a.getLsbD (n - 1 - fbi a) = true ∧ ∀ j < fbi a, a.getLsbD (n - 1 - j) = false)

/-- R50, R51, R53, R56: shifts, comparisons and `FIT` by the unsigned values of their operands, at every width. -/
def Obligations.PrimitivesByValue : Prop :=
  ∀ (n m k : Nat) (a : BitVec n) (b : BitVec m),
    ((lshift a k).toNat = a.toNat * 2 ^ k % 2 ^ n ∧ (n ≤ k → lshift a k = 0)) ∧
    ((rshift a k).toNat = a.toNat / 2 ^ k ∧ (n ≤ k → rshift a k = 0)) ∧
    ((eqN a b = true ↔ a.toNat = b.toNat) ∧ (leN a b = true ↔ a.toNat ≤ b.toNat) ∧
      (geN a b = true ↔ b.toNat ≤ a.toNat)) ∧
    ((fit a k).toNat = a.toNat % 2 ^ k ∧ fit (fit a k) k = fit a k)

/-- R47, R48, R49: equalization keeps both values, at 32 bits it changes no word, and it has no result below an operand's
width; `AND`, `OR` and `XOR` of operands of any two widths work bit by bit after it; `NEG` inverts every bit. -/
def Obligations.BitwiseAfterEqualize : Prop :=
  ∀ (n m t : Nat) (a : BitVec n) (b : BitVec m),
    ((equalize a b).1.toNat = a.toNat ∧ (equalize a b).2.toNat = b.toNat) ∧
    ((∀ p, equalizeTo t a b = some p → p.1.toNat = a.toNat ∧ p.2.toNat = b.toNat) ∧
      (equalizeTo t a b = none ↔ t < n ∨ t < m) ∧ ∀ x y : Word, equalizeTo 32 x y = some (x, y)) ∧
    (∀ (fits : n ≤ t ∧ m ≤ t) (i : Nat),
      (andN t a b fits).getLsbD i = (a.getLsbD i && b.getLsbD i) ∧
      (orN t a b fits).getLsbD i = (a.getLsbD i || b.getLsbD i) ∧
      (xorN t a b fits).getLsbD i = (a.getLsbD i ^^ b.getLsbD i)) ∧
    ∀ i < n, (negN a).getLsbD i = !a.getLsbD i

/-! ### Encoding -/

/-- R38, R39, R41: a stream decodes to a command exactly when it begins with the words that present that command. -/
def Obligations.DecodeEncodeAgree : Prop :=
  ∀ (i : Instr) (ws rest : List HostEvent), decode ws = .instr i rest ↔ ws = encode i ++ rest

/-- R41: one command word of each group, written out bit by bit, and what it stands for. -/
def Obligations.KnownWordsDecode : Prop :=
  decode [.command 0b00000001, .data 0x4048F5C3] = .instr (.wra 0x4048F5C3) [] ∧
  decode [.command 0b00000100] = .instr .rtob [] ∧ decode [.command 0b00100011] = .instr .div [] ∧
  decode [.command 0b01000010] = .instr .fmul [] ∧ decode [.command 0b01100110] = .instr .fpack [] ∧
  decode [.command 0b01101011] = .instr .fnan []

/-- R42, R105: 230 command words are reserved; each raises `ILLEGAL` in every state, takes no data word and reads no
register, and every other command word is a command. -/
def Obligations.ReservedRaisesIllegal : Prop :=
  (∀ (op : OpWord) (rest : List HostEvent) (s : State), isReserved op = true → s.host = .command op :: rest →
    step s = .next { s with host := rest, status := .illegal }) ∧
  (∀ (op : OpWord) (d : Word), isReserved op = false →
    ∃ i rest, i.opcode = op ∧ decode [.command op, .data d] = .instr i rest) ∧
  (List.range 256).countP (fun k => isReserved (BitVec.ofNat 8 k)) = 230

/-! ### The machine -/

/-- R43, R115 (the stream is the model's, entries 3 and 4): a step runs the command at the front of the host's stream, past its words, and waits when there is none. -/
def Obligations.StepTakesNextEvent : Prop :=
  (∀ (s : State) (i : Instr) (rest : List HostEvent), decode s.host = .instr i rest →
    step s = exec i { s with host := rest }) ∧
  (∀ s : State, s.host = [] → step s = .next s)

/-- R108: exactly one outcome is taken, in this order: `ILLEGAL`, the first unwritten register, `DIVZERO`, completion. -/
def Obligations.ChecksInOrder : Prop :=
  (∀ (s : State) (op : OpWord) (rest : List HostEvent), isReserved op = true → s.host = .command op :: rest →
    ∃ t, step s = .next t ∧ t.status = .illegal) ∧
  (∀ (s : State) (i : Instr) (rest : List HostEvent), s.host = encode i ++ rest →
    (∀ r, s.firstUnwritten (reads i) = some r → step s = .fault (.unwritten r)) ∧
    (s.firstUnwritten (reads i) = none → i = .div → s.opb = 0 → ∃ t, step s = .next t ∧ t.status = .divzero) ∧
    (s.firstUnwritten (reads i) = none → ¬(i = .div ∧ s.opb = 0) → ∃ t, step s = .next t ∧ t.status = .ok))

/-- R21, R41, R116: each of the 26 commands completes in every state in which what it reads is written (and, for `DIV`,
the divisor is not zero), with status `OK` and all that it writes written. -/
def Obligations.ReadyCommandsComplete : Prop :=
  ∀ (i : Instr) (s : State), Ready i s → (i = .div → s.opb ≠ 0) →
    ∃ t, exec i s = .next t ∧ t.status = .ok ∧ ∀ r ∈ writes i, t.written r = true

/-- R104: `DIVZERO` is raised by `DIV` with a zero divisor and by nothing else, and writes `STATUS` and nothing else. -/
def Obligations.DivzeroOnlyFromDiv : Prop :=
  (∀ s : State, s.opaWritten = true → s.opbWritten = true → s.opb = 0 →
    exec .div s = .next { s with status := .divzero }) ∧
  ∀ (i : Instr) (s t : State), exec i s = .next t → (t.status = .divzero ↔ i = .div ∧ s.opb = 0)

/-- R13, R41: a command leaves every register it does not write, with its written bit, and writes `STATUS` with `OK` or
`DIVZERO`. That it leaves the host's stream and the last answer is about the model's own fields (entries 3 and 6). -/
def Obligations.CommandFrame : Prop :=
  ∀ (i : Instr) (s t : State), exec i s = .next t →
    (.opa ∉ writes i → t.opa = s.opa ∧ t.opaWritten = s.opaWritten) ∧
    (.opb ∉ writes i → t.opb = s.opb ∧ t.opbWritten = s.opbWritten) ∧
    (.res ∉ writes i → t.res = s.res ∧ t.ovf = s.ovf ∧ t.resWritten = s.resWritten) ∧
    (t.status = .ok ∨ t.status = .divzero) ∧ t.host = s.host ∧ t.answer = s.answer

/-- R109: a raise is precise: the state is as before the command, except `STATUS`, and the host's stream is past it. -/
def Obligations.RaisesArePrecise : Prop :=
  ∀ (s t : State) (op : OpWord) (rest : List HostEvent), s.host = .command op :: rest → step s = .next t →
    t.status = .divzero ∨ t.status = .illegal → t = { s with host := rest, status := t.status }

/-- R20: every step keeps `STATUS` truthful. -/
def Obligations.StatusTruthfulKept : Prop :=
  ∀ s t : State, StatusTruthful s → step s = .next t → StatusTruthful t

/-- R20, R27: `STATUS` is truthful at reset. -/
def Obligations.StatusTruthfulAtReset : Prop := StatusTruthful State.reset

/-- R19: no step, of a command, a read or a reset, lets the content of an unwritten register be seen. -/
def Obligations.UnwrittenContentsUnseen : Prop :=
  ∀ s t : State, AgreeOnWritten s t → OutcomesAgree (step s) (step t)

/-- R18, R20: no command reads `OVF`, and none reads `STATUS`. -/
def Obligations.FlagAndStatusUnread : Prop :=
  ∀ (i : Instr) (s : State) (v : Bool) (c : Status),
    forgetOvf (exec i { s with ovf := v }) = forgetOvf (exec i s) ∧ exec i { s with status := c } = exec i s

/-- R28: what each host read answers, and that it changes nothing of the block. That the answer stands in a field of the
state is the model's choice (assumption log, entry 6). -/
def Obligations.HostReadsAnswer : Prop :=
  ∀ (s : State) (rest : List HostEvent),
    (s.host = .read .res :: rest → s.resWritten = true →
      step s = .next { s with host := rest, answer := some (.res s.res) }) ∧
    (s.host = .read .res :: rest → s.resWritten = false → step s = .fault (.unwritten .res)) ∧
    (s.host = .read .ovf :: rest → s.resWritten = true →
      step s = .next { s with host := rest, answer := some (.ovf s.ovf) }) ∧
    (s.host = .read .ovf :: rest → s.resWritten = false → step s = .fault (.unwritten .ovf)) ∧
    (s.host = .read .status :: rest → step s = .next { s with host := rest, answer := some (.status s.status.code) }) ∧
    (s.host = .read .opa :: rest → step s = .refused (.hostCannotRead .opa)) ∧
    (s.host = .read .opb :: rest → step s = .refused (.hostCannotRead .opb))

/-- R27, R114 (that the host's stream and last answer stay is the model's choice, entry 7): after a reset event, as in the reset state, `STATUS` is `NONE` and no register is written. -/
def Obligations.ResetClears : Prop :=
  (State.reset.status = .none ∧ State.reset.opaWritten = false ∧ State.reset.opbWritten = false ∧
    State.reset.resWritten = false) ∧
  ∀ (s : State) (rest : List HostEvent), s.host = .reset :: rest →
    ∃ t, step s = .next t ∧ t.status = .none ∧ t.opaWritten = false ∧ t.opbWritten = false ∧ t.resWritten = false ∧
      t.host = rest ∧ t.answer = s.answer

/-- R119, R120: a run of the host's finite stream comes to an end: no command hangs. -/
def Obligations.RunsEnd : Prop := ∀ s : State, (observe s).ended ≠ .running

/-- R116: a program that writes every register before a command reads it runs to its end without a fault. -/
def Obligations.BootRequirementsSuffice : Prop :=
  ∀ (is : List Instr) (k : Known) (s : State), s.host = present is → (∀ r, k.written r = true → s.written r = true) →
    bootOk k is = true → SafeRun s

/-- R116: while the host presents a program whose boot requirements are met, every step goes on, meets them again, and takes
something of the program, until nothing of it is left; so it is in the reset state, with nothing presented (entry 3). -/
def Obligations.BootReadyKept : Prop :=
  BootReady State.reset ∧
  ∀ s : State, BootReady s →
    ∃ t, step s = .next t ∧ BootReady t ∧ (s.host = [] → t = s) ∧ (s.host ≠ [] → t.host.length < s.host.length)
end

