-- ==== Sys2Proof/Laws/BitSeq.lean ====
section
/-!
SUPPORT. The bitwise primitives of R48 where both operands already have the target's width, as in every pass of the adder.
-/

namespace Sys2Proof.Machine

variable {n : Nat} (a b : BitVec n) (fits : n ≤ n ∧ n ≤ n)

@[simp] theorem extendBoth_same : extendBoth n a b fits = (a, b) := by simp [extendBoth]

@[simp] theorem andN_same : andN n a b fits = a &&& b := by simp [andN]

@[simp] theorem orN_same : orN n a b fits = a ||| b := by simp [orN]

@[simp] theorem xorN_same : xorN n a b fits = a ^^^ b := by simp [xorN]

end Sys2Proof.Machine
end

