-- ==== Sys2Proof/Laws/Decode.lean ====
section
/-!
SUPPORT. The small lemmas of the decoder and the encoder: each row of the table reads as its command and back, and what
is decoded is shorter than what was presented.
-/

namespace Sys2Proof

/-- Every row of the table of format `P` holds the command whose command word it is. -/
theorem plainTable_rows : ∀ row ∈ plainTable, row.2.opcode = row.1 ∧ row.2.dataWord = none ∧ takesData row.1 = false := by
  decide

/-- What `decodePlain` reads is the command with that command word, and it carries no data word. -/
theorem decodePlain_some {op : OpWord} {i : Instr} (h : decodePlain op = some i) :
    i.opcode = op ∧ i.dataWord = none := by
  unfold decodePlain at h
  obtain ⟨row, hrow, rfl⟩ := Option.map_eq_some_iff.1 h
  obtain ⟨h₁, h₂, -⟩ := plainTable_rows row (List.mem_of_find?_eq_some hrow)
  have h₃ : row.1 = op := by simpa using List.find?_some hrow
  exact ⟨h₁.trans h₃, h₂⟩

/-- `decodePlain` reads every command that carries no data word from its command word. -/
theorem decodePlain_opcode {i : Instr} (h : i.dataWord = none) : decodePlain i.opcode = some i := by
  cases i <;> first | rfl | simp [Instr.dataWord] at h

/-- A command carries a data word exactly when its command word takes one (R39). -/
theorem takesData_opcode (i : Instr) : takesData i.opcode = i.dataWord.isSome := by cases i <;> rfl

theorem takesData_iff {op : OpWord} : takesData op = true ↔ op = 0x01 ∨ op = 0x02 := by simp [takesData]

theorem decodeData_some {op : OpWord} {d : Word} {i : Instr} (h : decodeData op d = some i) :
    i.opcode = op ∧ i.dataWord = some d := by
  unfold decodeData at h
  split at h
  · simp_all only [beq_iff_eq, Option.some.injEq]
    subst h
    exact ⟨rfl, rfl⟩
  · split at h
    · simp_all only [beq_iff_eq, Option.some.injEq]
      subst h
      exact ⟨rfl, rfl⟩
    · simp at h

theorem decodeData_opcode {i : Instr} {d : Word} (h : i.dataWord = some d) : decodeData i.opcode d = some i := by
  cases i <;> simp [Instr.dataWord] at h <;> subst h <;> rfl

theorem encode_of_data {i : Instr} {d : Word} (h : i.dataWord = some d) : encode i = [.command i.opcode, .data d] := by
  simp [encode, h]

theorem encode_of_plain {i : Instr} (h : i.dataWord = none) : encode i = [.command i.opcode] := by
  simp [encode, h]

end Sys2Proof
end

