-- ==== Sys2Proof/Laws/Engine.lean ====
section
/-!
SUPPORT. What one pass of each circuit of the engine does: the steps the loop invariants of R62, R66 and R67 are made of.
-/

namespace Sys2Proof.Machine

variable {n : Nat}

/-- Half addition: a sum is the bits that differ, and twice the bits in common. -/
theorem nat_add_eq_xor_add_two_mul_and (x y : Nat) : x + y = (x ^^^ y) + 2 * (x &&& y) := by
  induction x using Nat.binaryRec generalizing y with
  | zero => simp
  | bit b x ih =>
    cases y using Nat.bitCasesOn with
    | bit c y =>
      rw [Nat.xor_bit, Nat.land_bit]
      have := ih y
      cases b <;> cases c <;> simp [Nat.bit_val] <;> omega

/-- A shift left by one place doubles, and drops the top bit. -/
theorem toNat_lshift_one (c : BitVec n) : (lshift c 1).toNat + c.msb.toNat * 2 ^ n = 2 * c.toNat := by
  cases n with
  | zero => simp [BitVec.of_length_zero, lshift]
  | succ m =>
    have h := c.isLt
    rw [lshift, BitVec.toNat_shiftLeft, Nat.shiftLeft_eq, BitVec.msb_eq_decide, Nat.add_sub_cancel]
    rw [Nat.pow_succ] at *
    by_cases hm : 2 ^ m ≤ c.toNat
    · simp only [hm, decide_true, Bool.toNat_true]
      rw [Nat.mod_eq_sub_mod (by omega), Nat.mod_eq_of_lt (by omega)]
      omega
    · simp only [hm, decide_false, Bool.toNat_false]
      rw [Nat.mod_eq_of_lt (by omega)]
      omega

/-- R62, one pass: the sum of the two strings is kept, with what the pass shifts out at the top counted at `2^n`. -/
theorem adder_pass_value (x y : BitVec n) (fits : n ≤ n ∧ n ≤ n) :
    (xorN n x y fits).toNat + (lshift (andN n x y fits) 1).toNat + (andN n x y fits).msb.toNat * 2 ^ n = x.toNat + y.toNat := by
  have h₁ := toNat_lshift_one (andN n x y fits)
  have h₂ := nat_add_eq_xor_add_two_mul_and x.toNat y.toNat
  simp only [xorN_same, andN_same, BitVec.toNat_xor, BitVec.toNat_and] at *
  omega

/-- R62, one pass: the carries of a pass end one bit higher than those they were made from. -/
theorem adder_pass_low_zero {x y : BitVec n} {k : Nat} (fits : n ≤ n ∧ n ≤ n) (h : 2 ^ k ∣ y.toNat) :
    2 ^ (k + 1) ∣ (lshift (andN n x y fits) 1).toNat + (andN n x y fits).msb.toNat * 2 ^ n := by
  rw [toNat_lshift_one, andN_same, BitVec.toNat_and, Nat.pow_succ, Nat.mul_comm (2 ^ k)]
  refine Nat.mul_dvd_mul_left 2 ?_
  rw [Nat.dvd_iff_mod_eq_zero, Nat.and_mod_two_pow, Nat.mod_eq_zero_of_dvd h, Nat.and_zero]

theorem mulPrefix_zero (a b : BitVec n) : mulPrefix a b 0 = 0 := rfl

/-- R66, one bit of the multiplier. -/
theorem mulPrefix_succ (a b : BitVec n) (k : Nat) :
    mulPrefix a b (k + 1) =
      if b.getLsbD k then (adder (mulPrefix a b k) (lshift a k)).1 else mulPrefix a b k := rfl

theorem divLoop_zero (a b : BitVec n) (acc : Nat) (q : BitVec n) : divLoop a b 0 acc q = q := rfl

/-- R67, one bit of the divider. -/
theorem divLoop_succ (a b : BitVec n) (k acc : Nat) (q : BitVec n) :
    divLoop a b (k + 1) acc q =
      if acc + b.toNat * 2 ^ k ≤ a.toNat then divLoop a b k (acc + b.toNat * 2 ^ k) (q ||| BitVec.twoPow n k)
      else divLoop a b k acc q := rfl

end Sys2Proof.Machine
end

