-- ==== Sys2Proof/Laws/State.lean ====
section
/-!
SUPPORT. One lemma for each field of the state and each update of it, so that no proof unfolds a record update.
-/

namespace Sys2Proof.Machine

variable (s : State)

@[simp] theorem State.opa_setOpa (d : Word) : (s.setOpa d).opa = d := rfl
@[simp] theorem State.opb_setOpa (d : Word) : (s.setOpa d).opb = s.opb := rfl
@[simp] theorem State.res_setOpa (d : Word) : (s.setOpa d).res = s.res := rfl
@[simp] theorem State.ovf_setOpa (d : Word) : (s.setOpa d).ovf = s.ovf := rfl
@[simp] theorem State.status_setOpa (d : Word) : (s.setOpa d).status = s.status := rfl
@[simp] theorem State.opaWritten_setOpa (d : Word) : (s.setOpa d).opaWritten = true := rfl
@[simp] theorem State.opbWritten_setOpa (d : Word) : (s.setOpa d).opbWritten = s.opbWritten := rfl
@[simp] theorem State.resWritten_setOpa (d : Word) : (s.setOpa d).resWritten = s.resWritten := rfl
@[simp] theorem State.host_setOpa (d : Word) : (s.setOpa d).host = s.host := rfl
@[simp] theorem State.answer_setOpa (d : Word) : (s.setOpa d).answer = s.answer := rfl

@[simp] theorem State.opa_setOpb (d : Word) : (s.setOpb d).opa = s.opa := rfl
@[simp] theorem State.opb_setOpb (d : Word) : (s.setOpb d).opb = d := rfl
@[simp] theorem State.res_setOpb (d : Word) : (s.setOpb d).res = s.res := rfl
@[simp] theorem State.ovf_setOpb (d : Word) : (s.setOpb d).ovf = s.ovf := rfl
@[simp] theorem State.status_setOpb (d : Word) : (s.setOpb d).status = s.status := rfl
@[simp] theorem State.opaWritten_setOpb (d : Word) : (s.setOpb d).opaWritten = s.opaWritten := rfl
@[simp] theorem State.opbWritten_setOpb (d : Word) : (s.setOpb d).opbWritten = true := rfl
@[simp] theorem State.resWritten_setOpb (d : Word) : (s.setOpb d).resWritten = s.resWritten := rfl
@[simp] theorem State.host_setOpb (d : Word) : (s.setOpb d).host = s.host := rfl
@[simp] theorem State.answer_setOpb (d : Word) : (s.setOpb d).answer = s.answer := rfl

@[simp] theorem State.opa_setResult (r : Word) (v : Bool) : (s.setResult r v).opa = s.opa := rfl
@[simp] theorem State.opb_setResult (r : Word) (v : Bool) : (s.setResult r v).opb = s.opb := rfl
@[simp] theorem State.res_setResult (r : Word) (v : Bool) : (s.setResult r v).res = r := rfl
@[simp] theorem State.ovf_setResult (r : Word) (v : Bool) : (s.setResult r v).ovf = v := rfl
@[simp] theorem State.status_setResult (r : Word) (v : Bool) : (s.setResult r v).status = s.status := rfl
@[simp] theorem State.opaWritten_setResult (r : Word) (v : Bool) : (s.setResult r v).opaWritten = s.opaWritten := rfl
@[simp] theorem State.opbWritten_setResult (r : Word) (v : Bool) : (s.setResult r v).opbWritten = s.opbWritten := rfl
@[simp] theorem State.resWritten_setResult (r : Word) (v : Bool) : (s.setResult r v).resWritten = true := rfl
@[simp] theorem State.host_setResult (r : Word) (v : Bool) : (s.setResult r v).host = s.host := rfl
@[simp] theorem State.answer_setResult (r : Word) (v : Bool) : (s.setResult r v).answer = s.answer := rfl

@[simp] theorem State.opa_setStatus (c : Status) : (s.setStatus c).opa = s.opa := rfl
@[simp] theorem State.opb_setStatus (c : Status) : (s.setStatus c).opb = s.opb := rfl
@[simp] theorem State.res_setStatus (c : Status) : (s.setStatus c).res = s.res := rfl
@[simp] theorem State.ovf_setStatus (c : Status) : (s.setStatus c).ovf = s.ovf := rfl
@[simp] theorem State.status_setStatus (c : Status) : (s.setStatus c).status = c := rfl
@[simp] theorem State.opaWritten_setStatus (c : Status) : (s.setStatus c).opaWritten = s.opaWritten := rfl
@[simp] theorem State.opbWritten_setStatus (c : Status) : (s.setStatus c).opbWritten = s.opbWritten := rfl
@[simp] theorem State.resWritten_setStatus (c : Status) : (s.setStatus c).resWritten = s.resWritten := rfl
@[simp] theorem State.host_setStatus (c : Status) : (s.setStatus c).host = s.host := rfl
@[simp] theorem State.answer_setStatus (c : Status) : (s.setStatus c).answer = s.answer := rfl

@[simp] theorem State.opa_withHost (ws : List HostEvent) : (s.withHost ws).opa = s.opa := rfl
@[simp] theorem State.opb_withHost (ws : List HostEvent) : (s.withHost ws).opb = s.opb := rfl
@[simp] theorem State.res_withHost (ws : List HostEvent) : (s.withHost ws).res = s.res := rfl
@[simp] theorem State.ovf_withHost (ws : List HostEvent) : (s.withHost ws).ovf = s.ovf := rfl
@[simp] theorem State.status_withHost (ws : List HostEvent) : (s.withHost ws).status = s.status := rfl
@[simp] theorem State.opaWritten_withHost (ws : List HostEvent) : (s.withHost ws).opaWritten = s.opaWritten := rfl
@[simp] theorem State.opbWritten_withHost (ws : List HostEvent) : (s.withHost ws).opbWritten = s.opbWritten := rfl
@[simp] theorem State.resWritten_withHost (ws : List HostEvent) : (s.withHost ws).resWritten = s.resWritten := rfl
@[simp] theorem State.host_withHost (ws : List HostEvent) : (s.withHost ws).host = ws := rfl
@[simp] theorem State.answer_withHost (ws : List HostEvent) : (s.withHost ws).answer = s.answer := rfl

@[simp] theorem State.opa_setAnswer (a : Answer) : (s.setAnswer a).opa = s.opa := rfl
@[simp] theorem State.opb_setAnswer (a : Answer) : (s.setAnswer a).opb = s.opb := rfl
@[simp] theorem State.res_setAnswer (a : Answer) : (s.setAnswer a).res = s.res := rfl
@[simp] theorem State.ovf_setAnswer (a : Answer) : (s.setAnswer a).ovf = s.ovf := rfl
@[simp] theorem State.status_setAnswer (a : Answer) : (s.setAnswer a).status = s.status := rfl
@[simp] theorem State.opaWritten_setAnswer (a : Answer) : (s.setAnswer a).opaWritten = s.opaWritten := rfl
@[simp] theorem State.opbWritten_setAnswer (a : Answer) : (s.setAnswer a).opbWritten = s.opbWritten := rfl
@[simp] theorem State.resWritten_setAnswer (a : Answer) : (s.setAnswer a).resWritten = s.resWritten := rfl
@[simp] theorem State.host_setAnswer (a : Answer) : (s.setAnswer a).host = s.host := rfl
@[simp] theorem State.answer_setAnswer (a : Answer) : (s.setAnswer a).answer = some a := rfl

/-- R19: which written bit each update sets. -/
@[simp] theorem State.written_setOpa (d : Word) (r : Reg) : (s.setOpa d).written r = (r == .opa || s.written r) := by
  cases r <;> simp [State.written]

@[simp] theorem State.written_setOpb (d : Word) (r : Reg) : (s.setOpb d).written r = (r == .opb || s.written r) := by
  cases r <;> simp [State.written]

@[simp] theorem State.written_setResult (w : Word) (v : Bool) (r : Reg) :
    (s.setResult w v).written r = (r == .res || r == .ovf || s.written r) := by
  cases r <;> simp [State.written]

@[simp] theorem State.written_setStatus (c : Status) (r : Reg) : (s.setStatus c).written r = s.written r := by
  cases r <;> rfl

@[simp] theorem State.written_withHost (ws : List HostEvent) (r : Reg) : (s.withHost ws).written r = s.written r := by
  cases r <;> rfl

@[simp] theorem State.written_setAnswer (a : Answer) (r : Reg) : (s.setAnswer a).written r = s.written r := by
  cases r <;> rfl

end Sys2Proof.Machine
end

