-- ==== Sys2Proof/Laws/Ops.lean ====
section
/-!
SUPPORT. One lemma for each shared operation, which says everything it can do: when a checked read goes on and when it
faults, and what a completion and a raise leave.
-/

namespace Sys2Proof.Machine

variable {s t : State} {k : Word → Result} {k₂ : Word → Word → Result}

theorem readOpa_of_written (h : s.opaWritten = true) : readOpa s k = k s.opa := by simp [readOpa, h]

theorem readOpa_of_unwritten (h : s.opaWritten = false) : readOpa s k = .fault (.unwritten .opa) := by simp [readOpa, h]

theorem readOpb_of_written (h : s.opbWritten = true) : readOpb s k = k s.opb := by simp [readOpb, h]

theorem readOpb_of_unwritten (h : s.opbWritten = false) : readOpb s k = .fault (.unwritten .opb) := by simp [readOpb, h]

theorem readRes_of_written (h : s.resWritten = true) : readRes s k = k s.res := by simp [readRes, h]

theorem readRes_of_unwritten (h : s.resWritten = false) : readRes s k = .fault (.unwritten .res) := by simp [readRes, h]

/-- A read of `OPA` answers a next state exactly when it is written and what follows does. -/
theorem readOpa_next_iff : readOpa s k = .next t ↔ s.opaWritten = true ∧ k s.opa = .next t := by
  cases h : s.opaWritten <;> simp [readOpa, h]

theorem readOpb_next_iff : readOpb s k = .next t ↔ s.opbWritten = true ∧ k s.opb = .next t := by
  cases h : s.opbWritten <;> simp [readOpb, h]

theorem readRes_next_iff : readRes s k = .next t ↔ s.resWritten = true ∧ k s.res = .next t := by
  cases h : s.resWritten <;> simp [readRes, h]

theorem readBoth_of_written (ha : s.opaWritten = true) (hb : s.opbWritten = true) :
    readBoth s k₂ = k₂ s.opa s.opb := by
  simp [readBoth, readOpa_of_written ha, readOpb_of_written hb]

theorem readBoth_of_opa_unwritten (h : s.opaWritten = false) : readBoth s k₂ = .fault (.unwritten .opa) :=
  readOpa_of_unwritten h

theorem readBoth_of_opb_unwritten (ha : s.opaWritten = true) (hb : s.opbWritten = false) :
    readBoth s k₂ = .fault (.unwritten .opb) := by
  simp [readBoth, readOpa_of_written ha, readOpb_of_unwritten hb]

theorem readBoth_next_iff :
    readBoth s k₂ = .next t ↔ s.opaWritten = true ∧ s.opbWritten = true ∧ k₂ s.opa s.opb = .next t := by
  simp [readBoth, readOpa_next_iff, readOpb_next_iff]

theorem writeOpa_next_iff {d : Word} : writeOpa d s = .next t ↔ t = (s.setOpa d).setStatus .ok := by
  simp [writeOpa, eq_comm]

theorem writeOpb_next_iff {d : Word} : writeOpb d s = .next t ↔ t = (s.setOpb d).setStatus .ok := by
  simp [writeOpb, eq_comm]

theorem complete_next_iff {r : Word} {v : Bool} :
    complete r v s = .next t ↔ t = (s.setResult r v).setStatus .ok := by
  simp [complete, eq_comm]

theorem raise_next_iff {c : Cause} : raise c s = .next t ↔ t = s.setStatus c.status := by
  simp [raise, eq_comm]

/-- The first unwritten register among those listed is one of them, and unwritten. -/
theorem firstUnwritten_some {rs : List Reg} {r : Reg} (h : s.firstUnwritten rs = some r) :
    r ∈ rs ∧ s.written r = false := by
  unfold State.firstUnwritten at h
  exact ⟨List.mem_of_find?_eq_some h, by simpa using List.find?_some h⟩

theorem firstUnwritten_none {rs : List Reg} : s.firstUnwritten rs = none ↔ ∀ r ∈ rs, s.written r = true := by
  simp [State.firstUnwritten, List.find?_eq_none]

end Sys2Proof.Machine
end

