-- ==== Sys2Proof/Laws/Exec.lean ====
section
/-!
SUPPORT. What each command is, over the shared operations (`exec_add` and its fellows); what one command can do, said once
(`exec_next_cases`, `exec_fault_cases`, `exec_not_refused`); and what one step can do (`step_next_cases`).
-/

namespace Sys2Proof.Machine

variable {s t : State} {i : Instr}

theorem exec_wra (d : Word) : exec (.wra d) s = writeOpa d s := rfl
theorem exec_wrb (d : Word) : exec (.wrb d) s = writeOpb d s := rfl
theorem exec_rtoa : exec .rtoa s = readRes s fun r => writeOpa r s := rfl
theorem exec_rtob : exec .rtob s = readRes s fun r => writeOpb r s := rfl
theorem exec_add : exec .add s = readBoth s fun a b => complete (adder a b).1 (adder a b).2 s := rfl
theorem exec_sub : exec .sub s = readBoth s fun a b => complete (subr a b).1 (subr a b).2 s := rfl
theorem exec_mul : exec .mul s = readBoth s fun a b => complete (mulr a b) noFlag s := rfl
theorem exec_fadd : exec .fadd s = readBoth s fun a b => complete (faddFn a b).1 (faddFn a b).2 s := rfl
theorem exec_fsub : exec .fsub s = readBoth s fun a b => complete (fsubFn a b).1 (fsubFn a b).2 s := rfl
theorem exec_fmul : exec .fmul s = readBoth s fun a b => complete (fmulFn a b).1 (fmulFn a b).2 s := rfl
theorem exec_fdiv : exec .fdiv s = readBoth s fun a b => complete (fdivFn a b).1 (fdivFn a b).2 s := rfl
theorem exec_feq : exec .feq s = readBoth s fun a b => complete (boolWord (eqN a b)) noFlag s := rfl
theorem exec_fpack : exec .fpack s = readBoth s fun a b => complete (packOperands a b) noFlag s := rfl
theorem exec_div : exec .div s =
    readBoth s fun a b => if b = 0 then raise .divzero s else complete (divr a b) noFlag s := rfl
theorem exec_comp : exec .comp s = readOpa s fun a => complete (compl a).1 (compl a).2 s := rfl
theorem exec_decomp : exec .decomp s = readOpa s fun a => complete (decompl a) noFlag s := rfl
theorem exec_fiszero : exec .fiszero s = readOpa s fun a => complete (boolWord (isZero a)) noFlag s := rfl
theorem exec_fisinf : exec .fisinf s = readOpa s fun a => complete (boolWord (isInf a)) noFlag s := rfl
theorem exec_fisnan : exec .fisnan s = readOpa s fun a => complete (boolWord (isNan a)) noFlag s := rfl
theorem exec_fsgn : exec .fsgn s = readOpa s fun a => complete (boolWord (sgnOf a)) noFlag s := rfl
theorem exec_fexp : exec .fexp s = readOpa s fun a => complete (fieldWord (expOf a)) noFlag s := rfl
theorem exec_ffrac : exec .ffrac s = readOpa s fun a => complete (fieldWord (fracOf a)) noFlag s := rfl
theorem exec_fmax : exec .fmax s = complete 0x7F7FFFFF noFlag s := rfl
theorem exec_fmin : exec .fmin s = complete 0x80800001 noFlag s := rfl
theorem exec_finf : exec .finf s = complete 0x7F800000 noFlag s := rfl
theorem exec_fnan : exec .fnan s = complete canonNan noFlag s := rfl

/-- If a command answers a next state, it wrote `OPA`, or `OPB`, or a result, or it was `DIV` with a zero divisor. -/
theorem exec_next_cases (h : exec i s = .next t) :
    (writes i = [.opa] ∧ ∃ d, t = (s.setOpa d).setStatus .ok) ∨
    (writes i = [.opb] ∧ ∃ d, t = (s.setOpb d).setStatus .ok) ∨
    (writes i = [.res, .ovf] ∧ (i = .div → s.opb ≠ 0) ∧ ∃ r v, t = (s.setResult r v).setStatus .ok) ∨
    (i = .div ∧ s.opaWritten = true ∧ s.opbWritten = true ∧ s.opb = 0 ∧ t = s.setStatus .divzero) := by
  cases i with
  | wra d =>
    rw [exec_wra, writeOpa_next_iff] at h
    exact .inl ⟨rfl, d, h⟩
  | wrb d =>
    rw [exec_wrb, writeOpb_next_iff] at h
    exact .inr (.inl ⟨rfl, d, h⟩)
  | rtoa =>
    rw [exec_rtoa, readRes_next_iff, writeOpa_next_iff] at h
    exact .inl ⟨rfl, _, h.2⟩
  | rtob =>
    rw [exec_rtob, readRes_next_iff, writeOpb_next_iff] at h
    exact .inr (.inl ⟨rfl, _, h.2⟩)
  | div =>
    rw [exec_div, readBoth_next_iff] at h
    obtain ⟨ha, hb, h⟩ := h
    by_cases hz : s.opb = 0
    · rw [if_pos hz, raise_next_iff] at h
      exact .inr (.inr (.inr ⟨rfl, ha, hb, hz, h⟩))
    · rw [if_neg hz, complete_next_iff] at h
      exact .inr (.inr (.inl ⟨rfl, fun _ => hz, _, _, h⟩))
  | add | sub | mul | fadd | fsub | fmul | fdiv | feq | fpack =>
    simp only [exec_add, exec_sub, exec_mul, exec_fadd, exec_fsub, exec_fmul, exec_fdiv, exec_feq, exec_fpack,
      readBoth_next_iff, complete_next_iff] at h
    exact .inr (.inr (.inl ⟨rfl, nofun, _, _, h.2.2⟩))
  | comp | decomp | fiszero | fisinf | fisnan | fsgn | fexp | ffrac =>
    simp only [exec_comp, exec_decomp, exec_fiszero, exec_fisinf, exec_fisnan, exec_fsgn, exec_fexp, exec_ffrac,
      readOpa_next_iff, complete_next_iff] at h
    exact .inr (.inr (.inl ⟨rfl, nofun, _, _, h.2⟩))
  | fmax | fmin | finf | fnan =>
    simp only [exec_fmax, exec_fmin, exec_finf, exec_fnan, complete_next_iff] at h
    exact .inr (.inr (.inl ⟨rfl, nofun, _, _, h⟩))

/-- A command that has all it reads ends in a next state. -/
theorem exec_of_ready (h : s.firstUnwritten (reads i) = none) : ∃ t, exec i s = .next t := by
  rw [firstUnwritten_none] at h
  cases i with
  | wra d | wrb d => exact ⟨_, rfl⟩
  | rtoa | rtob =>
    simp only [exec_rtoa, exec_rtob, readRes_of_written (h .res (by simp [reads]))]
    exact ⟨_, rfl⟩
  | div =>
    rw [exec_div, readBoth_of_written (h .opa (by simp [reads])) (h .opb (by simp [reads]))]
    by_cases hz : s.opb = 0
    · exact ⟨_, if_pos hz⟩
    · exact ⟨_, if_neg hz⟩
  | add | sub | mul | fadd | fsub | fmul | fdiv | feq | fpack =>
    simp only [exec_add, exec_sub, exec_mul, exec_fadd, exec_fsub, exec_fmul, exec_fdiv, exec_feq, exec_fpack,
      readBoth_of_written (h .opa (by simp [reads])) (h .opb (by simp [reads]))]
    exact ⟨_, rfl⟩
  | comp | decomp | fiszero | fisinf | fisnan | fsgn | fexp | ffrac =>
    simp only [exec_comp, exec_decomp, exec_fiszero, exec_fisinf, exec_fisnan, exec_fsgn, exec_fexp, exec_ffrac,
      readOpa_of_written (h .opa (by simp [reads]))]
    exact ⟨_, rfl⟩
  | fmax | fmin | finf | fnan => exact ⟨_, rfl⟩

/-- A command that lacks a register it reads faults, and names the first it lacks. -/
theorem exec_of_unwritten {r : Reg} (h : s.firstUnwritten (reads i) = some r) : exec i s = .fault (.unwritten r) := by
  cases i with
  | wra d | wrb d => simp [State.firstUnwritten, reads] at h
  | fmax | fmin | finf | fnan => simp [State.firstUnwritten, reads] at h
  | rtoa | rtob =>
    simp only [State.firstUnwritten, reads, State.written, List.find?_singleton, Bool.not_eq_true', ite_eq_iff,
      Option.some.injEq, reduceCtorEq, and_false, or_false] at h
    simp only [exec_rtoa, exec_rtob, readRes_of_unwritten h.1, h.2]
  | comp | decomp | fiszero | fisinf | fisnan | fsgn | fexp | ffrac =>
    simp only [State.firstUnwritten, reads, State.written, List.find?_singleton, Bool.not_eq_true', ite_eq_iff,
      Option.some.injEq, reduceCtorEq, and_false, or_false] at h
    simp only [exec_comp, exec_decomp, exec_fiszero, exec_fisinf, exec_fisnan, exec_fsgn, exec_fexp, exec_ffrac,
      readOpa_of_unwritten h.1, h.2]
  | div | add | sub | mul | fadd | fsub | fmul | fdiv | feq | fpack =>
    cases ha : s.opaWritten with
    | false =>
      simp only [State.firstUnwritten, reads, List.find?_cons, State.written, ha, Bool.not_false,
        Option.some.injEq] at h
      simp only [exec_div, exec_add, exec_sub, exec_mul, exec_fadd, exec_fsub, exec_fmul, exec_fdiv, exec_feq, exec_fpack,
        readBoth_of_opa_unwritten ha, h]
    | true =>
      cases hb : s.opbWritten with
      | false =>
        simp only [State.firstUnwritten, reads, List.find?_cons, State.written, ha, hb, Bool.not_false, Bool.not_true,
          Option.some.injEq] at h
        simp only [exec_div, exec_add, exec_sub, exec_mul, exec_fadd, exec_fsub, exec_fmul, exec_fdiv, exec_feq, exec_fpack,
          readBoth_of_opb_unwritten ha hb, h]
      | true => simp [State.firstUnwritten, reads, State.written, ha, hb] at h

/-- The only fault of a command is that of the first unwritten register it reads. -/
theorem exec_fault_cases {f : Fault} (h : exec i s = .fault f) :
    ∃ r, s.firstUnwritten (reads i) = some r ∧ f = .unwritten r := by
  cases hr : s.firstUnwritten (reads i) with
  | none =>
    obtain ⟨t, ht⟩ := exec_of_ready hr
    simp [ht] at h
  | some r =>
    rw [exec_of_unwritten hr, Host.Outcome.fault.injEq] at h
    exact ⟨r, rfl, h.symm⟩

/-- No command is refused. -/
theorem exec_not_refused {f : Refusal} : exec i s ≠ .refused f := by
  cases hr : s.firstUnwritten (reads i) with
  | none =>
    obtain ⟨t, ht⟩ := exec_of_ready hr
    simp [ht]
  | some r => simp [exec_of_unwritten hr]

/-- A host read that answers a next state leaves everything but its answer. -/
theorem hostRead_next_cases {r : Reg} (h : hostRead r s = .next t) :
    ∃ a, hostAnswer s r = .ok a ∧ t = s.setAnswer a := by
  unfold hostRead at h
  split at h <;> simp_all

/-- If a step answers a next state, the host's stream was empty, or began with a command, a reserved command word, a
read that is answered, or a reset. -/
theorem step_next_cases (h : step s = .next t) :
    (decode s.host = .idle ∧ t = s) ∨
    (∃ i rest, decode s.host = .instr i rest ∧ exec i (s.withHost rest) = .next t) ∨
    (∃ op rest, decode s.host = .reserved op rest ∧ t = (s.withHost rest).setStatus .illegal) ∨
    (∃ r rest a, decode s.host = .read r rest ∧ hostAnswer (s.withHost rest) r = .ok a ∧
      t = (s.withHost rest).setAnswer a) ∨
    (∃ rest, decode s.host = .reset rest ∧ t = { State.reset with host := rest, answer := s.answer }) := by
  unfold step at h
  cases hd : decode s.host with
  | idle => simp_all
  | instr i rest => exact .inr (.inl ⟨i, rest, rfl, by simpa [hd] using h⟩)
  | reserved op rest =>
    simp only [hd] at h
    exact .inr (.inr (.inl ⟨op, rest, rfl, raise_next_iff.1 h⟩))
  | read r rest =>
    simp only [hd] at h
    obtain ⟨a, ha, ht⟩ := hostRead_next_cases h
    exact .inr (.inr (.inr (.inl ⟨r, rest, a, rfl, ha, ht⟩)))
  | reset rest =>
    simp only [hd, hostReset, Host.Outcome.next.injEq] at h
    exact .inr (.inr (.inr (.inr ⟨rest, rfl, by simp [← h]⟩)))
  | partialCommand op => simp [hd] at h
  | strayData d => simp [hd] at h

end Sys2Proof.Machine
end

