-- ==== Sys2Proof/Laws/FloatData.lean ====
section
/-!
SUPPORT. The small lemmas of the float fields: the value of each field and of a packed word, what each field of a packed
word is, and that a word is its three fields.
-/

namespace Sys2Proof.Machine

variable (sg : Bool) (e : BitVec 8) (f : BitVec 23) (x : Word)

theorem sgnOf_eq_decide : sgnOf x = decide (2 ^ 31 ≤ x.toNat) := by
  have h := x.isLt
  rw [sgnOf, BitVec.getLsbD, Nat.testBit_eq_decide_div_mod_eq]
  congr 1
  simp only [eq_iff_iff]
  omega

theorem expOf_toNat : (expOf x).toNat = x.toNat / 2 ^ 23 % 2 ^ 8 := by
  rw [expOf, BitVec.extractLsb'_toNat, Nat.shiftRight_eq_div_pow]

theorem fracOf_toNat : (fracOf x).toNat = x.toNat % 2 ^ 23 := by
  simp [fracOf, BitVec.extractLsb'_toNat]

/-- R23: a packed word as a number. -/
theorem packFields_toNat : (packFields sg e f).toNat = sg.toNat * 2 ^ 31 + e.toNat * 2 ^ 23 + f.toNat := by
  have he := e.isLt
  have hf := f.isLt
  have h : (BitVec.ofBool sg ++ e ++ f).toNat = sg.toNat * 2 ^ 31 + e.toNat * 2 ^ 23 + f.toNat := by
    rw [BitVec.toNat_append, BitVec.toNat_append, ← Nat.shiftLeft_add_eq_or_of_lt f.isLt,
      ← Nat.shiftLeft_add_eq_or_of_lt e.isLt, Nat.shiftLeft_eq, Nat.shiftLeft_eq, BitVec.toNat_ofBool]
    omega
  exact h

@[simp] theorem sgnOf_packFields : sgnOf (packFields sg e f) = sg := by
  have he := e.isLt
  have hf := f.isLt
  rw [sgnOf_eq_decide, packFields_toNat]
  cases sg <;> simp <;> omega

@[simp] theorem expOf_packFields : expOf (packFields sg e f) = e := by
  have he := e.isLt
  have hf := f.isLt
  apply BitVec.eq_of_toNat_eq
  rw [expOf_toNat, packFields_toNat]
  omega

@[simp] theorem fracOf_packFields : fracOf (packFields sg e f) = f := by
  have he := e.isLt
  have hf := f.isLt
  apply BitVec.eq_of_toNat_eq
  rw [fracOf_toNat, packFields_toNat]
  omega

/-- R23: a word is its sign, its exponent and its fraction, and nothing else. -/
theorem packFields_of_fields : packFields (sgnOf x) (expOf x) (fracOf x) = x := by
  have h := x.isLt
  apply BitVec.eq_of_toNat_eq
  rw [packFields_toNat, expOf_toNat, fracOf_toNat, sgnOf_eq_decide]
  by_cases hs : 2 ^ 31 ≤ x.toNat <;> simp only [hs, decide_true, decide_false, Bool.toNat_true, Bool.toNat_false] <;> omega

/-- Two words with the same three fields are the same word. -/
theorem word_ext_fields {x y : Word} (hs : sgnOf x = sgnOf y) (he : expOf x = expOf y) (hf : fracOf x = fracOf y) :
    x = y := by
  rw [← packFields_of_fields x, ← packFields_of_fields y, hs, he, hf]

theorem fracOf_lt : (fracOf x).toNat < 2 ^ 23 := (fracOf x).isLt

/-- R6 `MANT_BITS`: a mantissa has its leading 1 at bit 23. -/
theorem mantOf_bounds : 2 ^ 23 ≤ mantOf x ∧ mantOf x < 2 ^ 24 := by
  have := fracOf_lt x
  simp only [mantOf]
  omega

end Sys2Proof.Machine
end

