-- ==== Sys2Proof/Laws/PerInstr.lean ====
section
/-!
SUPPORT. What is said of every command as syntax, one lemma for each constructor.
-/

namespace Sys2Proof.Laws.CommandLength

/-- R39, R41, R42: a command is well formed, its words move as many bits as its command word says, its format is `D`
exactly when a data word follows, and its command word is not a reserved one. -/
def Statement (i : Instr) : Prop :=
  i.wf = true ∧ ((encode i).map HostEvent.portBits).sum = commandBits i.opcode ∧
  (i.format = .D ↔ takesData i.opcode = true) ∧ isReserved i.opcode = false

theorem wra (data : Word) : Statement (.wra data) := ⟨rfl, rfl, iff_of_true rfl rfl, rfl⟩
theorem wrb (data : Word) : Statement (.wrb data) := ⟨rfl, rfl, iff_of_true rfl rfl, rfl⟩
theorem rtoa : Statement .rtoa := ⟨rfl, rfl, iff_of_false nofun nofun, rfl⟩
theorem rtob : Statement .rtob := ⟨rfl, rfl, iff_of_false nofun nofun, rfl⟩
theorem add : Statement .add := ⟨rfl, rfl, iff_of_false nofun nofun, rfl⟩
theorem sub : Statement .sub := ⟨rfl, rfl, iff_of_false nofun nofun, rfl⟩
theorem mul : Statement .mul := ⟨rfl, rfl, iff_of_false nofun nofun, rfl⟩
theorem div : Statement .div := ⟨rfl, rfl, iff_of_false nofun nofun, rfl⟩
theorem comp : Statement .comp := ⟨rfl, rfl, iff_of_false nofun nofun, rfl⟩
theorem decomp : Statement .decomp := ⟨rfl, rfl, iff_of_false nofun nofun, rfl⟩
theorem fadd : Statement .fadd := ⟨rfl, rfl, iff_of_false nofun nofun, rfl⟩
theorem fsub : Statement .fsub := ⟨rfl, rfl, iff_of_false nofun nofun, rfl⟩
theorem fmul : Statement .fmul := ⟨rfl, rfl, iff_of_false nofun nofun, rfl⟩
theorem fdiv : Statement .fdiv := ⟨rfl, rfl, iff_of_false nofun nofun, rfl⟩
theorem feq : Statement .feq := ⟨rfl, rfl, iff_of_false nofun nofun, rfl⟩
theorem fiszero : Statement .fiszero := ⟨rfl, rfl, iff_of_false nofun nofun, rfl⟩
theorem fisinf : Statement .fisinf := ⟨rfl, rfl, iff_of_false nofun nofun, rfl⟩
theorem fisnan : Statement .fisnan := ⟨rfl, rfl, iff_of_false nofun nofun, rfl⟩
theorem fsgn : Statement .fsgn := ⟨rfl, rfl, iff_of_false nofun nofun, rfl⟩
theorem fexp : Statement .fexp := ⟨rfl, rfl, iff_of_false nofun nofun, rfl⟩
theorem ffrac : Statement .ffrac := ⟨rfl, rfl, iff_of_false nofun nofun, rfl⟩
theorem fpack : Statement .fpack := ⟨rfl, rfl, iff_of_false nofun nofun, rfl⟩
theorem fmax : Statement .fmax := ⟨rfl, rfl, iff_of_false nofun nofun, rfl⟩
theorem fmin : Statement .fmin := ⟨rfl, rfl, iff_of_false nofun nofun, rfl⟩
theorem finf : Statement .finf := ⟨rfl, rfl, iff_of_false nofun nofun, rfl⟩
theorem fnan : Statement .fnan := ⟨rfl, rfl, iff_of_false nofun nofun, rfl⟩

end Sys2Proof.Laws.CommandLength
end

