-- ==== Sys2Proof/Tests/Slice0.lean ====
section
/-!
SUPPORT. The model's own tests. Expected results are those of spec/95_test_vectors.md (named by their ids) or of the rule
named; encodings are written out bit by bit from spec/30_encoding.md R41. At the end, one witness for each statement that
has hypotheses.
-/

namespace Sys2Proof.Tests

open Sys2Proof.Machine

/-- A state with both operands and the result written. -/
def both (a b : Word) : State :=
  { State.reset with opa := a, opb := b, res := 0x12345678, ovf := true, opaWritten := true, opbWritten := true,
                     resWritten := true, status := .ok }

/-- A state with only operand A written. -/
def onlyA (a : Word) : State := { State.reset with opa := a, opaWritten := true, status := .ok }

/-- `RES`, `OVF` and `STATUS` after one step of a command the host presents. -/
def result (i : Instr) (a b : Word) : Option (Word × Bool × Status) :=
  match step ((both a b).withHost (encode i)) with
  | .next t => some (t.res, t.ovf, t.status)
  | .fault _ | .refused _ => none

/-- The fault of one step from a state. -/
def faultOf (s : State) : Option Fault :=
  match step s with
  | .fault f => some f
  | .next _ | .refused _ => none

/-- The state after one step from a state. -/
def after (s : State) : Option State :=
  match step s with
  | .next t => some t
  | .fault _ | .refused _ => none

/-! ### Decoding: every row of R41, bit by bit -/

theorem test_decode_data_commands :
    decode [.command 0b00000001, .data 0xDEADBEEF] = .instr (.wra 0xDEADBEEF) [] ∧
    decode [.command 0b00000010, .data 0x00000005] = .instr (.wrb 0x00000005) [] := by decide

theorem test_decode_interface :
    decode [.command 0b00000011] = .instr .rtoa [] ∧
    decode [.command 0b00000100] = .instr .rtob [] := by decide

theorem test_decode_integer :
    decode [.command 0b00100000] = .instr .add [] ∧
    decode [.command 0b00100001] = .instr .sub [] ∧
    decode [.command 0b00100010] = .instr .mul [] ∧
    decode [.command 0b00100011] = .instr .div [] ∧
    decode [.command 0b00100100] = .instr .comp [] ∧
    decode [.command 0b00100101] = .instr .decomp [] := by decide

theorem test_decode_float :
    decode [.command 0b01000000] = .instr .fadd [] ∧
    decode [.command 0b01000001] = .instr .fsub [] ∧
    decode [.command 0b01000010] = .instr .fmul [] ∧
    decode [.command 0b01000011] = .instr .fdiv [] ∧
    decode [.command 0b01000100] = .instr .feq [] := by decide

theorem test_decode_codec :
    decode [.command 0b01100000] = .instr .fiszero [] ∧
    decode [.command 0b01100001] = .instr .fisinf [] ∧
    decode [.command 0b01100010] = .instr .fisnan [] ∧
    decode [.command 0b01100011] = .instr .fsgn [] ∧
    decode [.command 0b01100100] = .instr .fexp [] ∧
    decode [.command 0b01100101] = .instr .ffrac [] ∧
    decode [.command 0b01100110] = .instr .fpack [] := by decide

theorem test_decode_constants :
    decode [.command 0b01101000] = .instr .fmax [] ∧
    decode [.command 0b01101001] = .instr .fmin [] ∧
    decode [.command 0b01101010] = .instr .finf [] ∧
    decode [.command 0b01101011] = .instr .fnan [] := by decide

/-- L2-185, L2-186, U1: reserved command words; a data word after one is not taken (R39). -/
theorem test_decode_reserved :
    decode [.command 0x99, .data 0] = .reserved 0x99 [.data 0] ∧ decode [.command 0x00] = .reserved 0x00 [] ∧
    decode [.command 0x67] = .reserved 0x67 [] := by decide

/-- R37: `0x66` is group `011`, function `00110`. -/
theorem test_group_and_function : opGroup 0x66 = 0b011 ∧ opFunction 0x66 = 0b00110 := by decide

theorem test_table_word_of_wra : decodeTableWord 40 0x4048F5C301 = some (.wra 0x4048F5C3) := by decide

theorem test_table_word_shorter_than_command : decodeTableWord 8 0x02 = some (.wrb 0) := by decide

/-- The first step after reset runs the word presented: L2-187 and L2-184. -/
theorem test_first_step_runs_word :
    (after (State.reset.withFetchWord 8 0x68)).map (fun t => (t.res, t.status, t.host)) = some (0x7F7FFFFF, .ok, []) ∧
    faultOf (State.reset.withFetchWord 8 0x20) = some (.unwritten .opa) := by decide

/-! ### Well-formedness: each check refuses -/

theorem test_wf_refuses_missing_data : streamWf [.command 0x01] = false := by decide

theorem test_wf_refuses_stray_data : streamWf [.command 0x20, .data 0] = false ∧ streamWf [.data 0] = false := by decide

theorem test_wf_refuses_operand_read : streamWf [.read .opa] = false := by decide

theorem test_wf_accepts_program :
    streamWf [.command 0x01, .data 7, .command 0x24, .read .res, .reset, .command 0x99] = true := by decide

/-! ### One step of each command -/

/-- L2-34: any word is accepted; the rest stays. -/
theorem test_wra :
    (after ((both 1 2).withHost (encode (.wra 0x7FFFFFFF)))).map (fun t => (t.opa, t.opb, t.res, t.ovf)) =
      some (0x7FFFFFFF, 2, 0x12345678, true) := by decide

/-- L2-30: valid right after reset. -/
theorem test_wrb :
    (after (State.reset.withHost (encode (.wrb 0)))).map (fun t => (t.opb, t.opbWritten, t.opaWritten, t.status)) =
      some (0, true, false, .ok) := by decide

/-- L2-32: `RES` and `OPB` stay. -/
theorem test_rtoa :
    (after ((both 1 2).withHost (encode .rtoa))).map (fun t => (t.opa, t.opb, t.res)) =
      some (0x12345678, 2, 0x12345678) := by decide

/-- L2-33: `OPA` stays. -/
theorem test_rtob :
    (after ((both 1 2).withHost (encode .rtob))).map (fun t => (t.opa, t.opb)) = some (1, 0x12345678) := by decide

/-- L2-31. -/
theorem test_rtoa_faults :
    faultOf (State.reset.withHost (encode .rtoa)) = some (.unwritten .res) := by decide

/-- L2-37. -/
theorem test_add_carries :
    result .add 0xFFFFFFFF 1 = some (0, true, .ok) := by decide

/-- L2-38. -/
theorem test_add_signed_overflow_unflagged :
    result .add 0x7FFFFFFF 1 = some (0x80000000, false, .ok) := by decide

/-- L2-44. -/
theorem test_sub_borrows :
    result .sub 3 5 = some (0xFFFFFFFE, false, .ok) := by decide

/-- L2-45. -/
theorem test_sub_zero_has_no_carry :
    result .sub 5 0 = some (5, false, .ok) := by decide

/-- L2-56. -/
theorem test_mul_two_complement :
    result .mul 0xFFFFFF95 0xFFFFFF9F = some (0x0000288B, false, .ok) := by decide +kernel

/-- L2-64. -/
theorem test_div_exact_compare :
    result .div 0xFFFFFFFF 3 = some (0x55555555, false, .ok) := by decide

/-- L2-189. -/
theorem test_div_by_zero_keeps_result :
    result .div 7 0 = some (0x12345678, true, .divzero) := by decide

/-- L2-71. -/
theorem test_comp_zero_carries :
    result .comp 0 0x55 = some (0, true, .ok) := by decide

/-- L2-73. -/
theorem test_comp_minimum :
    result .comp 0x80000000 0x55 = some (0x80000000, false, .ok) := by decide

/-- L2-80. -/
theorem test_decomp :
    result .decomp 0xFFFFFF95 0x55 = some (0x0000006B, false, .ok) := by decide

/-- L2-105. -/
theorem test_fadd_sticky :
    result .fadd 0x4048F5C3 0x40200000 = some (0x40B47AE2, false, .ok) := by decide

/-- L2-108. -/
theorem test_fadd_overflows :
    result .fadd 0x7F7FFFFF 0x7F7FFFFF = some (0x7F800000, true, .ok) := by decide

/-- L2-133. -/
theorem test_fsub_tiny :
    result .fsub 0x3F800000 0x0D800000 = some (0x3F7FFFFE, false, .ok) := by decide

/-- L2-130. -/
theorem test_fsub_negative_zero :
    result .fsub 0x80000000 0x00000000 = some (0x80000000, false, .ok) := by decide

/-- L2-139. -/
theorem test_fmul_rounding_carry :
    result .fmul 0x3FB503D8 0x3FB5060E = some (0x40000000, false, .ok) := by decide

/-- L2-141. -/
theorem test_fmul_inf_times_zero :
    result .fmul 0x80000000 0x7F800000 = some (0x7FFFFFFF, false, .ok) := by decide

/-- L2-149. -/
theorem test_fdiv_smaller_mantissa :
    result .fdiv 0x40000000 0x40400000 = some (0x3F2AAAAA, false, .ok) := by decide

/-- L2-154. -/
theorem test_fdiv_by_negative_zero :
    result .fdiv 0xBF800000 0x80000000 = some (0x7F800000, false, .ok) := by decide

/-- L2-165. -/
theorem test_feq_zeros_differ :
    result .feq 0x00000000 0x80000000 = some (0, false, .ok) := by decide

/-- L2-163. -/
theorem test_feq_nan_equals_itself :
    result .feq 0x7FFFFFFF 0x7FFFFFFF = some (1, false, .ok) := by decide

/-- L2-83. -/
theorem test_fiszero_negative_zero :
    result .fiszero 0x80000000 0 = some (1, false, .ok) := by decide

/-- L2-84. -/
theorem test_fiszero_no_subnormal :
    result .fiszero 0x00000001 0 = some (0, false, .ok) := by decide

/-- L2-87. -/
theorem test_fisinf :
    result .fisinf 0xFF800000 0 = some (1, false, .ok) := by decide

/-- L2-88. -/
theorem test_fisnan :
    result .fisnan 0x7F800001 0 = some (1, false, .ok) := by decide

/-- L2-93. -/
theorem test_fsgn :
    result .fsgn 0xBF800000 0 = some (1, false, .ok) := by decide

/-- L2-92. -/
theorem test_fexp_biased :
    result .fexp 0x4048F5C3 0 = some (0x80, false, .ok) := by decide

/-- L2-92. -/
theorem test_ffrac :
    result .ffrac 0x4048F5C3 0 = some (0x0048F5C3, false, .ok) := by decide

/-- L2-99. -/
theorem test_fpack_ignores_other_bits :
    result .fpack 0xFFFFFE00 0xFF800000 = some (0, false, .ok) := by decide

/-- L2-100. -/
theorem test_fpack_sign_bit :
    result .fpack 0x0000017F 0x00000000 = some (0xBF800000, false, .ok) := by decide

/-- L2-101. -/
theorem test_fmax :
    result .fmax 0 0 = some (0x7F7FFFFF, false, .ok) := by decide

/-- L2-102. -/
theorem test_fmin :
    result .fmin 0 0 = some (0x80800001, false, .ok) := by decide

/-- L2-103. -/
theorem test_finf :
    result .finf 0 0 = some (0x7F800000, false, .ok) := by decide

/-- L2-104. -/
theorem test_fnan :
    result .fnan 0 0 = some (0x7FFFFFFF, false, .ok) := by decide

/-! ### The host's side, and the functions that are no commands -/

/-- L2-190: a reserved word changes `STATUS` only. -/
theorem test_reserved_raises :
    after ((both 7 0).withHost [.command 0x67]) = some { both 7 0 with status := .illegal } := by decide

/-- R28, U11: what the host can read, and that a read of an unwritten register faults. -/
theorem test_host_reads :
    (after ((both 7 0).withHost [.read .ovf])).map State.answer = some (some (.ovf true)) ∧
    faultOf (State.reset.withHost [.read .ovf]) = some (.unwritten .ovf) ∧
    (after (State.reset.withHost [.read .opa])) = none := by decide

/-- R114: reset clears the written bits and `STATUS`. -/
theorem test_reset_event : after ((both 7 0).withHost [.reset]) = some State.reset := by decide

/-- L2-19, L2-21: the adder's carry is the OR of every pass. -/
theorem test_adder_carries : adder 0xF#4 0xF#4 = (0xE#4, true) ∧ adder 0xFFFFFFFF#32 1#32 = (0, true) := by decide

/-- L2-3, L2-4: the first bit index of zero is the width. -/
theorem test_first_bit_index : fbi 0#32 = 32 ∧ fbi 1#24 = 23 := by decide

/-- L2-9, U5: equalization extends at the top, and has no result below an operand's width. -/
theorem test_equalize : equalize 0b101#3 0b0110#4 = (0b0101#4, 0b0110#4) ∧ equalizeTo 3 0b101#3 0b0110#4 = none := by
  decide

/-- R48: the narrower operand is zero-extended before the bits meet. -/
theorem test_bitwise_widths :
    andN 4 0b101#3 0b1110#4 (by decide) = 0b0100#4 ∧ orN 6 0b101#3 0b1010#4 (by decide) = 0b001111#6 ∧
    xorN 4 0b101#3 0b1110#4 (by decide) = 0b1011#4 := by decide

/-- L2-25: the decimal conversion wraps. -/
theorem test_decimal_wraps :
    strToInt 32 ['4', '2', '9', '4', '9', '6', '7', '2', '9', '6'] = some 0 := by decide +kernel

/-- L2-168, L2-179: the encoder rounds half up on the guard bit. -/
theorem test_encoder :
    enc ['3', '.', '1', '4'] = some 0x4048F5C3 ∧ enc ['1', '6', '7', '7', '7', '2', '1', '7'] = some 0x4B800001 := by
  decide

/-- L2-183: strings outside the grammar. -/
theorem test_encoder_refuses : enc ['.', '5'] = none ∧ enc ['+', '1'] = none ∧ enc ['1', 'e', '3'] = none ∧ enc [] = none := by
  decide

/-- L1-1: the exact value of `0x4048F5C3`. -/
theorem test_decoder : val 0x4048F5C3 = .finite (13170115 / 2 ^ 22) := by decide +kernel

/-- R44: `wra -1 ; minus one` and a word too long. -/
theorem test_assembler_words :
    assembleLine ['w', 'r', 'a', ' ', '-', '1', ' ', ';', 'm'] = some [.command 0x01, .data 0xFFFFFFFF] ∧
    assembleLine ['W', 'R', 'A', ' ', '0', 'x', '1', '2', '3', '4', '5', '6', '7', '8', '9'] = none := by decide

/-- R44: a hex word, its letters in either case (entry 10), and a letter that is no hex digit. -/
theorem test_assembler_hex :
    wordOperand ['0', 'x', 'D', 'e', 'A', 'd', 'B', 'E', 'e', '9'] = some 0xDEADBEE9 ∧
    wordOperand ['0', 'x', 'f'] = some 15 ∧ wordOperand ['0', 'x', 'G'] = none := by decide

/-- R45: the pseudo-instructions `WRBF 2.5` and `LD2 1, 0x2`. -/
theorem test_assembler_pseudo :
    assembleLine ['W', 'R', 'B', 'F', ' ', '2', '.', '5'] = some [.command 0x02, .data 0x40200000] ∧
    assembleLine ['L', 'D', '2', ' ', '1', ',', ' ', '0', 'x', '2'] =
      some [.command 0x01, .data 1, .command 0x02, .data 2] := by decide

/-! ### Witnesses: the hypotheses of each statement are met -/

/-- States that meet the three clauses of a command that reads both operands. -/
abbrev BinaryStates : Prop :=
  State.reset.opaWritten = false ∧ ((onlyA 1).opaWritten = true ∧ (onlyA 1).opbWritten = false) ∧
  ((both 1 2).opaWritten = true ∧ (both 1 2).opbWritten = true)

/-- States that meet the two clauses of a command that reads operand A. -/
abbrev UnaryStates : Prop := State.reset.opaWritten = false ∧ (onlyA 1).opaWritten = true

theorem witness_AddResult :
    BinaryStates := by decide

theorem witness_SubResult :
    BinaryStates := by decide

theorem witness_MulResult :
    BinaryStates := by decide

theorem witness_FeqResult :
    BinaryStates := by decide

theorem witness_CompDecompResults :
    UnaryStates := by decide

theorem witness_ClassifierResults :
    UnaryStates := by decide

theorem witness_FieldExtraction :
    UnaryStates := by decide

theorem witness_FpackBuildsWord :
    BinaryStates := by decide

theorem witness_ResultFeedsOperands :
    State.reset.resWritten = false ∧ (both 1 2).resWritten = true := by decide

theorem witness_DivResult :
    BinaryStates ∧ (both 7 0).opb = 0 ∧ (both 0xFFFFFFFF 1).opb ≠ 0 := by decide

theorem witness_ComplementAndInverse :
    0 < 1 ∧ (compl 0#1).2 = true ∧ (compl 1#1).2 = false := by decide

theorem witness_RestoringDivides :
    (1#1 : BitVec 1) ≠ 0 := by decide

theorem witness_DecodedValue :
    isZero 0x80000000 = true ∧ isNan 0x7F800001 = true ∧ (isInf 0x7F800000 = true ∧ sgnOf 0x7F800000 = false) ∧
    (isInf 0xFF800000 = true ∧ sgnOf 0xFF800000 = true) ∧ isOrd 0x00000001 = true ∧ isOrd 0x7F7FFFFF = true := by decide

theorem witness_DecimalStringValue :
    4 ≤ 4 ∧ decimalValue ['0'] = some 0 ∧ decimalValue [] = none := by decide

theorem witness_EncoderRoundsHalfUp :
    ['1'] ≠ [] ∧ decimalValue (['1'] ++ ['5', '0']) = some 150 ∧ decimalValue (['0'] ++ ['0']) = some 0 ∧
    decimalValue (['7'] ++ []) = some 7 ∧ 0 < 16777217 ∧ 0 < 1 := by decide

theorem witness_EncoderExactOnIntegers :
    decimalValue ['1', '6', '7', '7', '7', '2', '1', '5'] = some 16777215 ∧ 16777215 < 2 ^ 24 := by decide

theorem witness_AssemblerDecimalOperands :
    decimalValue ['4', '2', '9', '4', '9', '6', '7', '2', '9', '5'] = some 4294967295 ∧
    decimalValue ['4', '2', '9', '4', '9', '6', '7', '2', '9', '6'] = some 4294967296 ∧
    decimalValue ['1'] = some 1 ∧ decimalValue ['0'] = some 0 ∧
    decimalValue ['2', '1', '4', '7', '4', '8', '3', '6', '4', '9'] = some 2147483649 := by decide

theorem witness_RoundingShiftCovers :
    4 % 2 ^ 1 = 0 ∧ 5 % 2 ^ 1 ≠ 0 ∧ (0 < 1 ∧ 1 < 2 ^ 30) := by decide

theorem witness_PackRanges :
    2 ^ 23 ≤ 2 ^ 24 - 1 ∧ 2 ^ 24 - 1 < 2 ^ 24 ∧ (255 : ℤ) ≤ 255 ∧ (-1 : ℤ) < 0 ∧ ((0 : ℤ) ≤ 254 ∧ (254 : ℤ) < 255) := by decide

theorem witness_AlignmentBounds :
    2 ^ 23 ≤ 2 ^ 24 - 1 ∧ 2 ^ 24 - 1 < 2 ^ 24 ∧ 2 ^ 23 < 2 ^ 24 ∧ 0 < 1 ∧ 1 + 24 ≤ 25 := by decide

theorem witness_NormalizationShift :
    0 < 1 ∧ 1 < 2 ^ 24 := by decide

theorem witness_NanResultsCanonical :
    faddFn ∈ [faddFn, fsubFn, fmulFn, fdivFn] ∧ isNan 0x7F800001 = true ∧
    isNan (fdivFn 0 0).1 = true := ⟨List.mem_cons_self, by decide, by decide⟩

theorem witness_FaddMeaning :
    BinaryStates ∧ isNan 0x7F800001 = true ∧
    (isInf 0x7F800000 = true ∧ isInf 0xFF800000 = true ∧ sgnOf 0x7F800000 ≠ sgnOf 0xFF800000) ∧
    (isInf 0x3F800000 = false ∧ isNan 0x3F800000 = false ∧ isOrd 0x3F800000 = true) ∧
    (isZero 0x00000000 = true ∧ isZero 0x80000000 = true) ∧
    (isOrd 0x00000001 = true ∧ isOrd 0x80000001 = true ∧ sgnOf 0x00000001 ≠ sgnOf 0x80000001 ∧
      mantOf 0x00000001 = mantOf 0x80000001 ∧ mantOf 0x00000001 < mantOf 0x00000002 ∧
      2 ^ 24 ≤ mantOf 0x00000001 + mantOf 0x00000001) ∧
    mantOf 0x3F800000 + shrr (mantOf 0x3F000000) 1 < 2 ^ 24 := by decide

theorem witness_FsubMeaning :
    BinaryStates ∧ isOrd 0x00000001 = true := by decide

theorem witness_FmulMeaning :
    BinaryStates ∧ isNan 0x7F800001 = true ∧ (isInf 0x7F800000 = true ∧ isZero 0x80000000 = true) ∧
    true = (sgnOf 0x7F800000 ^^ sgnOf 0x80000000) ∧
    (isOrd 0x3FB503D8 = true ∧ isOrd 0x3FB5060E = true ∧
      mantOf 0x3FB503D8 * mantOf 0x3FB5060E < 2 ^ 47 ∧ shrr (mantOf 0x3FB503D8 * mantOf 0x3FB5060E) 23 = 2 ^ 24) ∧
    (mantOf 0x3F800000 * mantOf 0x3F800000 < 2 ^ 47 ∧ shrr (mantOf 0x3F800000 * mantOf 0x3F800000) 23 ≠ 2 ^ 24) ∧
    2 ^ 47 ≤ mantOf 0x3FFFFFFF * mantOf 0x3FFFFFFF := by decide

theorem witness_FdivMeaning :
    BinaryStates ∧ isNan 0x7F800001 = true ∧ (isZero 0x80000000 = true ∧ isInf 0xFF800000 = true) ∧
    false = (sgnOf 0x80000000 ^^ sgnOf 0xFF800000) ∧
    (isOrd 0x3F800000 = true ∧ isOrd 0x3FFFFFFF = true ∧ mantOf 0x3F800000 < mantOf 0x3FFFFFFF ∧
      mantOf 0x3F800000 ≤ mantOf 0x3F800000) := by decide

theorem witness_FaddSameSignBound :
    isOrd 0x3F800000 = true ∧ isOrd 0x0D800000 = true ∧ sgnOf 0x3F800000 = sgnOf 0x0D800000 ∧
    (expOf 0x3F800000).toNat = (expOf 0x0D800000).toNat + 100 ∧
    addOrdinary 0x3F800000 0x0D800000 = some ⟨false, 127, 2 ^ 23 + 1⟩ := by decide

theorem witness_FmulRoundsUp :
    isOrd 0x3FB503D8 = true ∧ isOrd 0x3FB5060E = true := by decide

theorem witness_FdivTruncates :
    isOrd 0x3F800000 = true ∧ isOrd 0x40400000 = true := by decide

theorem witness_PackInputsNormalized :
    isOrd 0x3F800000 = true ∧ isOrd 0xBF400000 = true ∧
    addOrdinary 0x3F800000 0xBF400000 = some ⟨false, 125, 2 ^ 23⟩ := by decide

theorem witness_FloatOverflowFlag :
    fmulFn ∈ [faddFn, fsubFn, fmulFn, fdivFn] ∧ (fmulFn 0x7F7FFFFF 0x40000000).2 = true := ⟨by simp, by decide⟩

theorem witness_FirstBitIndex :
    (0#8 : BitVec 8) = 0 ∧ (0x80#8 : BitVec 8) ≠ 0 ∧ (0x01#8 : BitVec 8) ≠ 0 ∧ 6 < fbi (0x01#8 : BitVec 8) := by decide

theorem witness_PrimitivesByValue :
    8 ≤ 8 ∧ lshift 0xFF#8 8 = 0 ∧ rshift 0xFF#8 8 = 0 := by decide

theorem witness_BitwiseAfterEqualize :
    equalizeTo 4 0b101#3 0b0110#4 = some (0b0101#4, 0b0110#4) ∧ (3 ≤ 4 ∧ 4 ≤ 4) ∧ 3 < 4 := by decide

theorem witness_ReservedRaisesIllegal :
    isReserved 0xFF = true ∧ ((both 7 0).withHost [.command 0xFF]).host = [.command 0xFF] ∧ isReserved 0x6B = false := by decide

theorem witness_StepTakesNextEvent :
    decode (State.reset.withHost [.command 0x68]).host = .instr .fmax [] ∧ State.reset.host = [] := by decide

theorem witness_ChecksInOrder :
    isReserved 0x00 = true ∧ (State.reset.withHost (encode .div)).host = encode .div ++ [] ∧
    State.reset.firstUnwritten (reads .div) = some .opa ∧ (onlyA 7).firstUnwritten (reads .div) = some .opb ∧
    (both 7 0).firstUnwritten (reads .div) = none ∧ (both 7 0).opb = 0 ∧ ¬((both 7 1).opb = 0) := by decide

theorem witness_DivzeroOnlyFromDiv :
    (both 7 0).opaWritten = true ∧ (both 7 0).opbWritten = true ∧ (both 7 0).opb = 0 ∧
    exec .div (both 7 0) = .next { both 7 0 with status := .divzero } ∧
    exec .fmax State.reset = .next ((State.reset.setResult 0x7F7FFFFF false).setStatus .ok) := ⟨rfl, rfl, rfl, rfl, rfl⟩

theorem witness_CommandFrame :
    exec .rtoa (both 7 0) = .next (((both 7 0).setOpa 0x12345678).setStatus .ok) ∧ .opb ∉ writes .rtoa ∧
    .opa ∉ writes .rtob ∧ .res ∉ writes .rtoa := ⟨rfl, by decide, by decide, by decide⟩

theorem witness_RaisesArePrecise :
    ((both 7 0).withHost [.command 0x23]).host = .command 0x23 :: [] ∧
    step ((both 7 0).withHost [.command 0x23]) = .next { both 7 0 with status := .divzero } ∧
    step ((both 7 0).withHost [.command 0x67]) = .next { both 7 0 with status := .illegal } := ⟨rfl, rfl, rfl⟩

theorem witness_HostReadsAnswer :
    ((both 7 0).withHost [.read .res]).host = [.read .res] ∧ (both 7 0).resWritten = true ∧
    State.reset.resWritten = false := by decide

theorem witness_ResetClears :
    ((both 7 0).withHost [.reset]).host = .reset :: [] := by decide

theorem witness_ReadyCommandsComplete : Ready .div (both 7 1) ∧ (both 7 1).opb ≠ 0 ∧ Ready .fmax State.reset := by
  refine ⟨?_, by decide, ?_⟩ <;> simp only [Ready] <;> decide

theorem witness_StatusTruthfulKept :
    StatusTruthful (both 7 0) ∧ step ((both 7 0).withHost [.command 0x23]) = .next { both 7 0 with status := .divzero } := by
  refine ⟨?_, rfl⟩
  simp only [StatusTruthful]
  decide

/-- Two states that differ in an unwritten operand and in nothing else. -/
theorem witness_UnwrittenContentsUnseen : AgreeOnWritten State.reset { State.reset with opa := 7 } where
  opaWritten := rfl
  opbWritten := rfl
  resWritten := rfl
  opa := nofun
  opb := nofun
  res := nofun
  ovf := nofun
  status := rfl
  host := rfl
  answer := rfl

theorem witness_BootReadyKept : BootReady (State.reset.withHost (present [.wra 7, .comp, .rtob, .div])) :=
  ⟨_, ⟨false, false, false⟩, rfl, fun r => by cases r <;> decide, by decide⟩

theorem witness_BootRequirementsSuffice :
    (State.reset.withHost (present [.wra 7, .comp, .rtob, .div])).host = present [.wra 7, .comp, .rtob, .div] ∧
    bootOk ⟨false, false, false⟩ [.wra 7, .comp, .rtob, .div] = true ∧
    ∀ r, (⟨false, false, false⟩ : Known).written r = true → State.reset.written r = true := by
  refine ⟨rfl, by decide, ?_⟩
  intro r
  cases r <;> decide

end Sys2Proof.Tests
end

section
/-!
PROOFS of spec/30_encoding.md: what the decoder reads at the front of a stream, by the kind of its command word, and the
reserved command words.
-/

namespace Sys2Proof.Machine

variable {op : OpWord} {i : Instr} {d : Word} {s : State} {rest : List HostEvent}

/-! ### The decoder at a command word -/

/-- R39: a command word of format `P` is a whole command. -/
theorem decode_of_decodePlain_some (h : decodePlain op = some i) : decode (.command op :: rest) = .instr i rest := by
  obtain ⟨hop, hd⟩ := decodePlain_some h
  have ht : takesData op = false := by simp [← hop, takesData_opcode, hd]
  simp [decode, ht, h]

/-- R38: a command word of format `D` is a whole command with the data word after it. -/
theorem decode_of_decodeData_some (h : decodeData op d = some i) :
    decode (.command op :: .data d :: rest) = .instr i rest := by
  obtain ⟨hop, hd⟩ := decodeData_some h
  have ht : takesData op = true := by simp [← hop, takesData_opcode, hd]
  simp [decode, ht, h]

/-- R39: a command word of neither format is taken alone, whatever follows it. -/
theorem decode_of_no_format (ht : takesData op = false) (hp : decodePlain op = none) :
    decode (.command op :: rest) = .reserved op rest := by
  simp [decode, ht, hp]

theorem exists_decodeData_of_takesData (d : Word) (h : takesData op = true) : ∃ i, decodeData op d = some i := by
  obtain rfl | rfl := takesData_iff.1 h
  · exact ⟨.wra d, rfl⟩
  · exact ⟨.wrb d, rfl⟩

/-! ### The reserved command words -/

/-- The ranges of R42 are the words that the table of R41 leaves out. -/
theorem isReserved_eq_no_format :
    ∀ op : OpWord, isReserved op = (!takesData op && (decodePlain op).isNone) := by
  decide

theorem isReserved_iff : isReserved op = true ↔ takesData op = false ∧ decodePlain op = none := by
  simp [isReserved_eq_no_format]

theorem decode_of_isReserved (h : isReserved op = true) : decode (.command op :: rest) = .reserved op rest := by
  obtain ⟨ht, hp⟩ := isReserved_iff.1 h
  exact decode_of_no_format ht hp

/-- R42: a word that is not reserved is the command word of a command, read from it and at most one data word. -/
theorem decode_of_not_isReserved (d : Word) (h : isReserved op = false) :
    ∃ i rest, i.opcode = op ∧ decode [.command op, .data d] = .instr i rest := by
  cases ht : takesData op with
  | true =>
    obtain ⟨i, hi⟩ := exists_decodeData_of_takesData d ht
    exact ⟨i, [], (decodeData_some hi).1, decode_of_decodeData_some hi⟩
  | false =>
    cases hp : decodePlain op with
    | some i => exact ⟨i, [.data d], (decodePlain_some hp).1, decode_of_decodePlain_some hp⟩
    | none => simp [isReserved_iff.2 ⟨ht, hp⟩] at h

/-- R105: a reserved word raises `ILLEGAL` past that one word, before any register is checked. -/
theorem step_of_isReserved (h : isReserved op = true) (hs : s.host = .command op :: rest) :
    step s = .next ((s.withHost rest).setStatus .illegal) := by
  simp only [step, hs, decode_of_isReserved h]
  exact raise_next_iff.2 rfl

/-- R42: "That makes 230 values." A count over the 256 command words. -/
theorem countP_isReserved : (List.range 256).countP (fun k => isReserved (BitVec.ofNat 8 k)) = 230 := by
  decide +kernel

/-- Settles O44: a reserved word has neither format, so the decoder takes it alone and the step raises; every other word
has one of the two formats. -/
theorem reservedRaisesIllegal : Obligations.ReservedRaisesIllegal :=
  ⟨fun _ _ _ h hs => step_of_isReserved h hs, fun _ d h => decode_of_not_isReserved d h, countP_isReserved⟩

end Sys2Proof.Machine
end

section
/-!
PROOFS of spec/40_bitseq_primitives.md: what each BitSeq primitive does to the unsigned value or to the bits of its
operands, at every width.
-/

namespace Sys2Proof.Machine

variable {n m t : Nat} {a : BitVec n} {b : BitVec m}

/-! ### The first bit index -/

@[simp] theorem fbi_zero : fbi (0 : BitVec n) = n := if_pos rfl

theorem toNat_ne_zero (h : a ≠ 0) : a.toNat ≠ 0 := fun h₀ => h (BitVec.eq_of_toNat_eq h₀)

/-- The most significant set bit of a nonzero string lies inside its width. -/
theorem log2_toNat_lt (h : a ≠ 0) : a.toNat.log2 < n := (Nat.log2_lt (toNat_ne_zero h)).2 a.isLt

/-- R54: the index counts from the top, so the index and the place of the first set bit share the width. -/
theorem fbi_add_log2 (h : a ≠ 0) : fbi a + a.toNat.log2 + 1 = n := by
  have := log2_toNat_lt h
  rw [fbi, if_neg h]
  omega

theorem fbi_lt (h : a ≠ 0) : fbi a < n := by
  have := fbi_add_log2 h
  omega

theorem getLsbD_fbi (h : a ≠ 0) : a.getLsbD (n - 1 - fbi a) = true := by
  have hplace : n - 1 - fbi a = a.toNat.log2 := by
    have := fbi_add_log2 h
    omega
  rw [hplace, ← BitVec.testBit_toNat]
  exact Nat.testBit_log2 (toNat_ne_zero h)

theorem getLsbD_of_lt_fbi (h : a ≠ 0) {j : Nat} (hj : j < fbi a) : a.getLsbD (n - 1 - j) = false := by
  have habove : a.toNat.log2 < n - 1 - j := by
    have := fbi_add_log2 h
    omega
  rw [← BitVec.testBit_toNat]
  exact Nat.testBit_lt_two_pow ((Nat.log2_lt (toNat_ne_zero h)).1 habove)

/-- Settles O40: the place that `FBI` counts to from the top is the binary logarithm of the value, which is the place of
the most significant set bit. -/
theorem firstBitIndex : Obligations.FirstBitIndex := fun _ _ =>
  ⟨fun h => h ▸ fbi_zero, fun h => ⟨fbi_lt h, getLsbD_fbi h, fun _ hj => getLsbD_of_lt_fbi h hj⟩⟩

/-! ### Equalization -/

theorem toNat_extendBoth (fits : n ≤ t ∧ m ≤ t) :
    (extendBoth t a b fits).1.toNat = a.toNat ∧ (extendBoth t a b fits).2.toNat = b.toNat :=
  ⟨BitVec.toNat_setWidth_of_le fits.1, BitVec.toNat_setWidth_of_le fits.2⟩

@[simp] theorem toNat_equalize_fst (a : BitVec n) (b : BitVec m) : (equalize a b).1.toNat = a.toNat :=
  (toNat_extendBoth _).1

@[simp] theorem toNat_equalize_snd (a : BitVec n) (b : BitVec m) : (equalize a b).2.toNat = b.toNat :=
  (toNat_extendBoth _).2

theorem equalizeTo_of_fits (fits : n ≤ t ∧ m ≤ t) : equalizeTo t a b = some (extendBoth t a b fits) := dif_pos fits

/-- R47, U5: equalization has a result exactly when the target is no narrower than either operand. -/
theorem equalizeTo_eq_none_iff : equalizeTo t a b = none ↔ t < n ∨ t < m := by
  simp only [equalizeTo, dite_eq_right_iff, reduceCtorEq, imp_false]
  omega

theorem toNat_of_equalizeTo_eq_some {p : BitVec t × BitVec t} (h : equalizeTo t a b = some p) :
    p.1.toNat = a.toNat ∧ p.2.toNat = b.toNat := by
  obtain ⟨fits, hp⟩ := Option.dite_none_right_eq_some.1 h
  exact Option.some.inj hp ▸ toNat_extendBoth fits

theorem equalizeTo_same (x y : BitVec n) : equalizeTo n x y = some (x, y) := by
  rw [equalizeTo_of_fits ⟨Nat.le_refl n, Nat.le_refl n⟩, extendBoth_same]

/-! ### The bitwise primitives -/

/-- A bit of an equalized operand is the operand's own, and past the operand's width both are clear. -/
theorem getLsbD_extendBoth (fits : n ≤ t ∧ m ≤ t) (i : Nat) :
    (extendBoth t a b fits).1.getLsbD i = a.getLsbD i ∧ (extendBoth t a b fits).2.getLsbD i = b.getLsbD i := by
  simp only [← BitVec.testBit_toNat, toNat_extendBoth fits, and_self]

theorem getLsbD_andN (fits : n ≤ t ∧ m ≤ t) (i : Nat) :
    (andN t a b fits).getLsbD i = (a.getLsbD i && b.getLsbD i) := by
  simp only [andN, BitVec.getLsbD_and, getLsbD_extendBoth fits]

theorem getLsbD_orN (fits : n ≤ t ∧ m ≤ t) (i : Nat) :
    (orN t a b fits).getLsbD i = (a.getLsbD i || b.getLsbD i) := by
  simp only [orN, BitVec.getLsbD_or, getLsbD_extendBoth fits]

theorem getLsbD_xorN (fits : n ≤ t ∧ m ≤ t) (i : Nat) :
    (xorN t a b fits).getLsbD i = (a.getLsbD i ^^ b.getLsbD i) := by
  simp only [xorN, BitVec.getLsbD_xor, getLsbD_extendBoth fits]

theorem getLsbD_negN {i : Nat} (hi : i < n) : (negN a).getLsbD i = !a.getLsbD i := by
  simp [negN, hi]

/-- Settles O59: zero extension keeps an operand's value, so it keeps every bit, and the bitwise primitives act on the
equalized operands. -/
theorem bitwiseAfterEqualize : Obligations.BitwiseAfterEqualize := fun _ _ _ a b =>
  ⟨⟨toNat_equalize_fst a b, toNat_equalize_snd a b⟩,
    ⟨fun _ h => toNat_of_equalizeTo_eq_some h, equalizeTo_eq_none_iff, equalizeTo_same⟩,
    fun fits i => ⟨getLsbD_andN fits i, getLsbD_orN fits i, getLsbD_xorN fits i⟩,
    fun _ hi => getLsbD_negN hi⟩

/-! ### Shifts, comparisons and `FIT` -/

theorem toNat_lshift (a : BitVec n) (k : Nat) : (lshift a k).toNat = a.toNat * 2 ^ k % 2 ^ n := by
  rw [lshift, BitVec.toNat_shiftLeft, Nat.shiftLeft_eq]

theorem lshift_eq_zero {k : Nat} (h : n ≤ k) : lshift a k = 0 := BitVec.shiftLeft_eq_zero h

theorem toNat_rshift (a : BitVec n) (k : Nat) : (rshift a k).toNat = a.toNat / 2 ^ k := by
  rw [rshift, BitVec.toNat_ushiftRight, Nat.shiftRight_eq_div_pow]

theorem rshift_eq_zero {k : Nat} (h : n ≤ k) : rshift a k = 0 := BitVec.ushiftRight_eq_zero h

theorem eqN_iff : eqN a b = true ↔ a.toNat = b.toNat := by
  rw [eqN, beq_iff_eq, ← BitVec.toNat_inj, toNat_equalize_fst, toNat_equalize_snd]

theorem leN_iff : leN a b = true ↔ a.toNat ≤ b.toNat := by
  rw [leN, decide_eq_true_iff, toNat_equalize_fst, toNat_equalize_snd]

theorem geN_iff : geN a b = true ↔ b.toNat ≤ a.toNat := by
  rw [geN, decide_eq_true_iff, toNat_equalize_fst, toNat_equalize_snd]

theorem toNat_fit (a : BitVec n) (k : Nat) : (fit a k).toNat = a.toNat % 2 ^ k := BitVec.toNat_setWidth k a

/-- R56: fitting to a width a string already has changes nothing. -/
@[simp] theorem fit_width (a : BitVec n) : fit a n = a := BitVec.setWidth_eq a

/-- Settles O41: each primitive by its value lemma; a comparison is of the equalized operands, which keep their values. -/
theorem primitivesByValue : Obligations.PrimitivesByValue := fun _ _ k a _ =>
  ⟨⟨toNat_lshift a k, lshift_eq_zero⟩, ⟨toNat_rshift a k, rshift_eq_zero⟩, ⟨eqN_iff, leN_iff, geN_iff⟩,
    ⟨toNat_fit a k, fit_width (fit a k)⟩⟩

end Sys2Proof.Machine
end

section
/-!
PROOFS of spec/41_interface_commands.md: the four commands that move operands, read at their command words and held to
the whole state they answer.
-/

namespace Sys2Proof.Machine

variable {s : State}

/-! ### What an operand write leaves unchanged -/

/-- R58: all of the state but `OPA`, its written bit and `STATUS` is as before. -/
theorem writeOpa_frame (d : Word) (s : State) :
    writeOpa d s = .next { s with opa := d, opaWritten := true, status := .ok } := rfl

/-- R59: all of the state but `OPB`, its written bit and `STATUS` is as before. -/
theorem writeOpb_frame (d : Word) (s : State) :
    writeOpb d s = .next { s with opb := d, opbWritten := true, status := .ok } := rfl

/-! ### The result as an operand -/

theorem exec_rtoa_of_written (h : s.resWritten = true) : exec .rtoa s = writeOpa s.res s := by
  rw [exec_rtoa, readRes_of_written h]

theorem exec_rtob_of_written (h : s.resWritten = true) : exec .rtob s = writeOpb s.res s := by
  rw [exec_rtob, readRes_of_written h]

theorem exec_rtoa_of_unwritten (h : s.resWritten = false) : exec .rtoa s = .fault (.unwritten .res) := by
  rw [exec_rtoa, readRes_of_unwritten h]

theorem exec_rtob_of_unwritten (h : s.resWritten = false) : exec .rtob s = .fault (.unwritten .res) := by
  rw [exec_rtob, readRes_of_unwritten h]

/-! ### The obligations -/

/-- Settles O1: both command words have format `D`, and the commands read no register, so each is its operand write in
every state. -/
theorem operandWritesComplete : Obligations.OperandWritesComplete :=
  ⟨fun _ _ => decode_of_decodeData_some rfl, fun _ _ => decode_of_decodeData_some rfl,
    fun d s => (exec_wra d).trans (writeOpa_frame d s), fun d s => (exec_wrb d).trans (writeOpb_frame d s)⟩

/-- Settles O2: both command words have format `P`, and the written bit of `RES` decides between the fault and the
operand write of `RES`. -/
theorem resultFeedsOperands : Obligations.ResultFeedsOperands :=
  ⟨fun _ => decode_of_decodePlain_some rfl, fun _ => decode_of_decodePlain_some rfl,
    fun _ h => ⟨exec_rtoa_of_unwritten h, exec_rtob_of_unwritten h⟩,
    fun s h => ⟨(exec_rtoa_of_written h).trans (writeOpa_frame s.res s),
      (exec_rtob_of_written h).trans (writeOpb_frame s.res s)⟩⟩

end Sys2Proof.Machine
end

section
/-!
PROOFS of spec/42_integer.md: the circuits of section 1 compute the sum, the difference, the product and the quotient at
every width, by the invariant of each loop; and the six commands of section 2 are those circuits at 32 bits.
-/

namespace Sys2Proof.Machine

variable {n : Nat}

/-! ### The ripple adder -/

theorem isEmpty_iff {a : BitVec n} : isEmpty a = true ↔ a = 0 := beq_iff_eq

/-- R62, one pass: the loop ends when no carry is left. -/
theorem adderLoop_succ (passes : Nat) (x y : BitVec n) (cout : Bool) (fits : n ≤ n ∧ n ≤ n) :
    adderLoop (passes + 1) x y cout =
      if isEmpty (lshift (andN n x y fits) 1) then (xorN n x y fits, cout || (andN n x y fits).msb)
      else adderLoop passes (xorN n x y fits) (lshift (andN n x y fits) 1) (cout || (andN n x y fits).msb) := rfl

/-- Two carries that cannot both be set count together as their disjunction. -/
theorem toNat_or_mul {c d : Bool} {v w : Nat} (h : v + d.toNat * w + c.toNat * w < 2 * w) :
    (c || d).toNat * w = c.toNat * w + d.toNat * w := by
  cases c with
  | false => simp
  | true =>
    cases d with
    | false => simp
    | true =>
      rw [Bool.toNat_true] at h
      omega

/-- R62: every pass keeps the value of the two strings and the carry counted at `2^n`, and after pass `k` the low `k`
bits of the second string are clear, so none of it is left after pass `n`. -/
theorem adderLoop_value {passes k : Nat} {x y : BitVec n} {cout : Bool} (hk : k + passes = n) (hy : 2 ^ k ∣ y.toNat)
    (hlt : x.toNat + y.toNat + cout.toNat * 2 ^ n < 2 * 2 ^ n) :
    (adderLoop passes x y cout).1.toNat + (adderLoop passes x y cout).2.toNat * 2 ^ n =
      x.toNat + y.toNat + cout.toNat * 2 ^ n := by
  induction passes generalizing k x y cout with
  | zero =>
    have hy₀ : y.toNat = 0 := Nat.eq_zero_of_dvd_of_lt hy (hk ▸ y.isLt)
    simp [adderLoop, hy₀]
  | succ passes ih =>
    have fits : n ≤ n ∧ n ≤ n := ⟨Nat.le_refl n, Nat.le_refl n⟩
    have hpass := adder_pass_value x y fits
    have hcout := toNat_or_mul (hpass ▸ hlt)
    have hcarry : 2 ^ (k + 1) ∣ (lshift (andN n x y fits) 1).toNat :=
      (Nat.dvd_add_left ((Nat.pow_dvd_pow 2 (by omega)).mul_left _)).1 (adder_pass_low_zero fits hy)
    rw [adderLoop_succ passes x y cout fits]
    split
    case isTrue hempty =>
      rw [isEmpty_iff.1 hempty, BitVec.ofNat_eq_ofNat, BitVec.toNat_zero] at hpass
      dsimp only
      omega
    case isFalse =>
      rw [ih (by omega) hcarry (by omega)]
      omega

/-- R62: the sum, with the carry-out counted at `2^n`. -/
theorem adder_value (a b : BitVec n) :
    (adder a b).1.toNat + (adder a b).2.toNat * 2 ^ n = a.toNat + b.toNat := by
  have := a.isLt
  have := b.isLt
  have hloop := adderLoop_value (x := a) (cout := false) (Nat.zero_add n) (one_dvd b.toNat)
    (by rw [Bool.toNat_false]; omega)
  simpa [adder] using hloop

@[simp] theorem adder_fst (a b : BitVec n) : (adder a b).1 = a + b := by
  apply BitVec.eq_of_toNat_eq
  rw [BitVec.toNat_add, ← adder_value, Nat.add_mul_mod_self_right, Nat.mod_eq_of_lt (adder a b).1.isLt]

@[simp] theorem adder_snd (a b : BitVec n) : (adder a b).2 = decide (2 ^ n ≤ a.toNat + b.toNat) := by
  have hvalue := adder_value a b
  have hsum := (adder a b).1.isLt
  cases hc : (adder a b).2 with
  | false =>
    rw [hc, Bool.toNat_false] at hvalue
    exact (decide_eq_false (by omega)).symm
  | true =>
    rw [hc, Bool.toNat_true] at hvalue
    exact (decide_eq_true (by omega)).symm

/-! ### The complement and the subtractor -/

/-- R63: the complement of a string is its negation. -/
@[simp] theorem compl_fst (a : BitVec n) : (compl a).1 = -a := by
  rw [compl, adder_fst]
  exact (BitVec.neg_eq_not_add a).symm

/-- R63: the inverted bits and 1 reach `2^n` only where no bit was set. -/
theorem compl_snd (hn : 0 < n) (a : BitVec n) : (compl a).2 = decide (a = 0) := by
  have hone : (1 : BitVec n).toNat = 1 := BitVec.toNat_one hn
  have hzero : a = 0 ↔ a.toNat = 0 := BitVec.toNat_inj.symm
  have := a.isLt
  rw [compl, adder_snd, hone, negN, BitVec.toNat_not, decide_eq_decide, hzero]
  omega

/-- R64: the decomplement negates as well. -/
@[simp] theorem decompl_eq_neg (a : BitVec n) : decompl a = -a := by
  rw [decompl, adder_fst, negN, BitVec.not_add_eq_not_neg, BitVec.not_eq_neg_add, ← BitVec.neg_one_eq_allOnes,
    BitVec.sub_neg, BitVec.sub_add_cancel]

@[simp] theorem subr_fst (a b : BitVec n) : (subr a b).1 = a - b := by
  rw [subr, adder_fst, compl_fst, BitVec.sub_eq_add_neg]

/-- R65: adding the complement carries where `a` reaches a nonzero `b`; the complement of 0 is 0, which never
carries. -/
theorem subr_snd (a b : BitVec n) : (subr a b).2 = decide (b ≠ 0 ∧ b.toNat ≤ a.toNat) := by
  have := a.isLt
  rw [subr, adder_snd, compl_fst, BitVec.toNat_neg, decide_eq_decide]
  by_cases hb : b = 0
  · simpa [hb] using this
  · have := b.isLt
    have := toNat_ne_zero hb
    rw [Nat.mod_eq_of_lt (by omega), and_iff_right hb]
    omega

/-! ### The multiplier -/

/-- R66: after bits `0` to `k-1` the accumulator is the product with the low `k` bits of `b`. -/
theorem mulPrefix_eq_mul (a b : BitVec n) (k : Nat) : mulPrefix a b k = a * (b.setWidth k).setWidth n := by
  induction k with
  | zero => simp [mulPrefix_zero, BitVec.of_length_zero]
  | succ k ih =>
    rw [mulPrefix_succ, ih, BitVec.setWidth_setWidth_succ_eq_setWidth_setWidth_add_twoPow, BitVec.mul_add,
      BitVec.and_twoPow]
    cases b.getLsbD k with
    | false => simp
    | true => simp [lshift, BitVec.mul_twoPow_eq_shiftLeft]

@[simp] theorem mulr_eq_mul (a b : BitVec n) : mulr a b = a * b := by
  rw [mulr, mulPrefix_eq_mul, BitVec.setWidth_eq, BitVec.setWidth_eq]

/-! ### The divider -/

/-- Setting a clear bit below all those that are set adds its weight. -/
theorem toNat_or_twoPow {q : BitVec n} {k : Nat} (hk : k < n) (hq : 2 ^ (k + 1) ∣ q.toNat) :
    (q ||| BitVec.twoPow n k).toNat = q.toNat + 2 ^ k := by
  obtain ⟨m, hm⟩ := hq
  rw [BitVec.toNat_or, BitVec.toNat_twoPow_of_lt hk, hm,
    ← Nat.two_pow_add_eq_or_of_lt (Nat.pow_lt_pow_right (by decide) (Nat.lt_succ_self k))]

/-- R67: before bit `k-1` the running product is `q * b`, at most `a` and less than `b * 2^k` below it, and the low `k`
bits of `q` are clear. -/
theorem divLoop_value {a b : BitVec n} {k acc : Nat} {q : BitVec n} (hk : k ≤ n) (hq : 2 ^ k ∣ q.toNat)
    (hacc : acc = q.toNat * b.toNat) (hle : acc ≤ a.toNat) (hlt : a.toNat < acc + b.toNat * 2 ^ k) :
    (divLoop a b k acc q).toNat = a.toNat / b.toNat := by
  induction k generalizing acc q with
  | zero =>
    rw [divLoop_zero]
    refine (Nat.div_eq_of_lt_le (hacc ▸ hle) ?_).symm
    rw [Nat.succ_mul]
    omega
  | succ k ih =>
    have hpow : b.toNat * 2 ^ (k + 1) = b.toNat * 2 ^ k + b.toNat * 2 ^ k := by ring
    have hq' : 2 ^ k ∣ q.toNat := (Nat.pow_dvd_pow 2 (Nat.le_succ k)).trans hq
    rw [divLoop_succ]
    split
    case isTrue hfits =>
      have hset := toNat_or_twoPow hk hq
      refine ih (Nat.le_of_lt hk) (hset ▸ Nat.dvd_add hq' dvd_rfl) ?_ hfits (by omega)
      rw [hset, hacc]
      ring
    case isFalse hexceeds => exact ih (Nat.le_of_lt hk) hq' hacc hle (by omega)

theorem toNat_divr (a : BitVec n) {b : BitVec n} (hb : b ≠ 0) : (divr a b).toNat = a.toNat / b.toNat := by
  have hpos : 0 < b.toNat := Nat.pos_of_ne_zero (toNat_ne_zero hb)
  refine divLoop_value (Nat.le_refl n) (by simp) (by simp) (Nat.zero_le _) ?_
  calc a.toNat < 2 ^ n := a.isLt
    _ ≤ 0 + b.toNat * 2 ^ n := by rw [Nat.zero_add]; exact Nat.le_mul_of_pos_left _ hpos

theorem divr_eq_ofNat (a : BitVec n) {b : BitVec n} (hb : b ≠ 0) : divr a b = BitVec.ofNat n (a.toNat / b.toNat) := by
  rw [← toNat_divr a hb, BitVec.ofNat_toNat, BitVec.setWidth_eq]

/-! ### The commands as arithmetic -/

variable {s : State}

theorem exec_add_eq_sum :
    exec .add s = readBoth s fun a b => complete (a + b) (decide (2 ^ 32 ≤ a.toNat + b.toNat)) s := by
  simp only [exec_add, adder_fst, adder_snd]

theorem exec_sub_eq_difference :
    exec .sub s = readBoth s fun a b => complete (a - b) (decide (b ≠ 0 ∧ b.toNat ≤ a.toNat)) s := by
  simp only [exec_sub, subr_fst, subr_snd]

theorem exec_mul_eq_product : exec .mul s = readBoth s fun a b => complete (a * b) false s := by
  simp only [exec_mul, mulr_eq_mul, noFlag]

theorem exec_comp_eq_neg : exec .comp s = readOpa s fun a => complete (-a) (decide (a = 0)) s := by
  simp only [exec_comp, compl_fst, compl_snd (Nat.succ_pos 31)]

theorem exec_decomp_eq_neg : exec .decomp s = readOpa s fun a => complete (-a) false s := by
  simp only [exec_decomp, decompl_eq_neg, noFlag]

theorem exec_div_of_zero (ha : s.opaWritten = true) (hb : s.opbWritten = true) (hz : s.opb = 0) :
    exec .div s = raise .divzero s := by
  rw [exec_div, readBoth_of_written ha hb, if_pos hz]

theorem exec_div_of_ne_zero (ha : s.opaWritten = true) (hb : s.opbWritten = true) (hz : s.opb ≠ 0) :
    exec .div s = complete (BitVec.ofNat 32 (s.opa.toNat / s.opb.toNat)) false s := by
  rw [exec_div, readBoth_of_written ha hb, if_neg hz, divr_eq_ofNat _ hz, noFlag]

/-! ### The shapes of a computing command -/

/-- R21: all of the state but `RES`, `OVF`, their written bit and `STATUS` is as before. -/
theorem complete_frame (r : Word) (v : Bool) (s : State) :
    complete r v s = .next { s with res := r, ovf := v, resWritten := true, status := .ok } := rfl

/-- R109: all of the state but `STATUS` is as before. -/
theorem raise_frame (c : Cause) (s : State) : raise c s = .next { s with status := c.status } := rfl

section Shapes

variable {op : OpWord} {i : Instr}

/-- A row of the table whose meaning is a completion over both operands has the whole shape of such a command. -/
theorem binaryCommand_of_exec {r : Word → Word → Word} {v : Word → Word → Bool} (hop : decodePlain op = some i)
    (hexec : ∀ s, exec i s = readBoth s fun a b => complete (r a b) (v a b) s) : BinaryCommand op i r v :=
  ⟨fun _ => decode_of_decodePlain_some hop,
    fun s ha => (hexec s).trans (readBoth_of_opa_unwritten ha),
    fun s ha hb => (hexec s).trans (readBoth_of_opb_unwritten ha hb),
    fun s ha hb => ((hexec s).trans (readBoth_of_written ha hb)).trans (complete_frame _ _ s)⟩

/-- A row of the table whose meaning is a completion over operand A has the whole shape of such a command. -/
theorem unaryCommand_of_exec {r : Word → Word} {v : Word → Bool} (hop : decodePlain op = some i)
    (hexec : ∀ s, exec i s = readOpa s fun a => complete (r a) (v a) s) : UnaryCommand op i r v :=
  ⟨fun _ => decode_of_decodePlain_some hop,
    fun s ha => (hexec s).trans (readOpa_of_unwritten ha),
    fun s ha => ((hexec s).trans (readOpa_of_written ha)).trans (complete_frame _ _ s)⟩

end Shapes

/-! ### The obligations -/

/-- Settles O8: the adder's passes keep the sum, and the carries they shift out are its carry. -/
theorem addResult : Obligations.AddResult := binaryCommand_of_exec rfl fun _ => exec_add_eq_sum

/-- Settles O9: the subtractor adds the complement, which is the negation. -/
theorem subResult : Obligations.SubResult := binaryCommand_of_exec rfl fun _ => exec_sub_eq_difference

/-- Settles O10: the multiplier's accumulator is the product with the bits of `b` it has met. -/
theorem mulResult : Obligations.MulResult := binaryCommand_of_exec rfl fun _ => exec_mul_eq_product

/-- Settles O11: both operands are checked before the divisor is compared with 0, and the divider's loop gives the floor
of the quotient for any other divisor. -/
theorem divResult : Obligations.DivResult :=
  ⟨fun _ => decode_of_decodePlain_some rfl,
    fun _ ha => exec_div.trans (readBoth_of_opa_unwritten ha),
    fun _ ha hb => exec_div.trans (readBoth_of_opb_unwritten ha hb),
    fun s ha hb hz => (exec_div_of_zero ha hb hz).trans (raise_frame .divzero s),
    fun s ha hb hz => (exec_div_of_ne_zero ha hb hz).trans (complete_frame _ _ s)⟩

/-- Settles O12: the complement and the decomplement are both the negation, and the complement carries for 0 alone. -/
theorem compDecompResults : Obligations.CompDecompResults :=
  ⟨unaryCommand_of_exec rfl fun _ => exec_comp_eq_neg, unaryCommand_of_exec rfl fun _ => exec_decomp_eq_neg⟩

end Sys2Proof.Machine
end

section
/-!
PROOFS of spec/43_float_codec.md: the four classes of words by their fields and by the words themselves, what `val`
gives in each class, and the codec commands as arithmetic on the unsigned value of the word.
-/

namespace Sys2Proof.Machine

variable {x : Word}

/-! ### The classes by exponent and fraction -/

theorem isZero_iff : isZero x = true ↔ (expOf x).toNat = 0 ∧ (fracOf x).toNat = 0 := by
  simp only [isZero, Bool.and_eq_true, beq_iff_eq, ← BitVec.toNat_inj, BitVec.ofNat_eq_ofNat, BitVec.toNat_ofNat]

theorem isInf_iff : isInf x = true ↔ (expOf x).toNat = 255 ∧ (fracOf x).toNat = 0 := by
  simp only [isInf, Bool.and_eq_true, beq_iff_eq, ← BitVec.toNat_inj, BitVec.ofNat_eq_ofNat, BitVec.toNat_ofNat]

theorem isNan_iff : isNan x = true ↔ (expOf x).toNat = 255 ∧ (fracOf x).toNat ≠ 0 := by
  simp only [isNan, Bool.and_eq_true, beq_iff_eq, bne_iff_ne, ne_eq, ← BitVec.toNat_inj, BitVec.ofNat_eq_ofNat,
    BitVec.toNat_ofNat]

theorem isOrd_iff : isOrd x = true ↔ isZero x = false ∧ isInf x = false ∧ isNan x = false := by
  simp only [isOrd, Bool.and_eq_true, Bool.not_eq_true', and_assoc]

theorem isInf_of_isZero (h : isZero x = true) : isInf x = false := by
  rw [isZero_iff] at h
  rw [Bool.eq_false_iff, ne_eq, isInf_iff]
  omega

theorem isNan_of_isZero (h : isZero x = true) : isNan x = false := by
  rw [isZero_iff] at h
  rw [Bool.eq_false_iff, ne_eq, isNan_iff]
  omega

theorem isNan_of_isInf (h : isInf x = true) : isNan x = false := by
  rw [isInf_iff] at h
  rw [Bool.eq_false_iff, ne_eq, isNan_iff]
  omega

theorem isZero_of_isInf (h : isInf x = true) : isZero x = false :=
  Bool.eq_false_iff.2 fun hz => Bool.false_ne_true ((isInf_of_isZero hz).symm.trans h)

theorem isZero_of_isNan (h : isNan x = true) : isZero x = false :=
  Bool.eq_false_iff.2 fun hz => Bool.false_ne_true ((isNan_of_isZero hz).symm.trans h)

/-- R76: the first three classes exclude each other, and the fourth holds exactly where none of them does. -/
theorem class_count (x : Word) :
    (isZero x).toNat + (isInf x).toNat + (isNan x).toNat + (isOrd x).toNat = 1 := by
  cases hz : isZero x with
  | true => simp [isOrd, hz, isInf_of_isZero hz, isNan_of_isZero hz]
  | false =>
    cases hi : isInf x with
    | true => simp [isOrd, hi, isNan_of_isInf hi]
    | false => cases hn : isNan x <;> simp [isOrd, hz, hi, hn]

/-! ### The classes by the words they hold of -/

/-- R81: a word is zero when all its bits but the sign are clear. -/
theorem isZero_iff_word : isZero x = true ↔ x = 0x00000000 ∨ x = 0x80000000 := by
  have hx := x.isLt
  rw [isZero_iff, expOf_toNat, fracOf_toNat]
  bv_omega

/-- R82: either infinity. -/
theorem isInf_iff_word : isInf x = true ↔ x = 0x7F800000 ∨ x = 0xFF800000 := by
  have hx := x.isLt
  rw [isInf_iff, expOf_toNat, fracOf_toNat]
  bv_omega

/-- R83: the low 31 bits of a NaN exceed those of an infinity. -/
theorem isNan_iff_lt : isNan x = true ↔ 0x7F800000 < x.toNat % 2 ^ 31 := by
  rw [isNan_iff, expOf_toNat, fracOf_toNat]
  omega

/-! ### Narrow results as words -/

theorem boolWord_eq_ite {b : Bool} {p : Prop} [Decidable p] (h : b = true ↔ p) :
    boolWord b = if p then 1 else 0 := if_congr h rfl rfl

theorem boolWord_eq_ofNat (b : Bool) : boolWord b = BitVec.ofNat 32 b.toNat := by cases b <;> rfl

theorem fieldWord_eq_ofNat {n : Nat} (v : BitVec n) : fieldWord v = BitVec.ofNat 32 v.toNat := by
  rw [BitVec.ofNat_toNat, fieldWord, fit]

theorem toNat_sgnOf (x : Word) : (sgnOf x).toNat = x.toNat / 2 ^ 31 := by
  have hx := x.isLt
  rw [sgnOf_eq_decide]
  by_cases hs : 2 ^ 31 ≤ x.toNat
  · rw [decide_eq_true hs, Bool.toNat_true]
    omega
  · rw [decide_eq_false hs, Bool.toNat_false]
    omega

/-! ### `FPACK` -/

theorem packOperands_toNat (a b : Word) :
    (packOperands a b).toNat = a.toNat / 2 ^ 8 % 2 * 2 ^ 31 + a.toNat % 2 ^ 8 * 2 ^ 23 + b.toNat % 2 ^ 23 := by
  have hsign : (a.getLsbD 8).toNat = a.toNat / 2 ^ 8 % 2 := by rw [BitVec.getLsbD, Nat.toNat_testBit]
  rw [packOperands, packFields_toNat, hsign]
  simp only [BitVec.extractLsb'_toNat, Nat.shiftRight_zero]

/-- R87: the sign above the exponent in one operand and the fraction in the other pack to the word of these fields. -/
theorem packOperands_fields (sg : Bool) (e : BitVec 8) (f : BitVec 23) :
    packOperands (boolWord sg * 256 + fieldWord e) (fieldWord f) = packFields sg e f := by
  have he := e.isLt
  have hf := f.isLt
  have hsg := sg.toNat_le
  have hhigh : (boolWord sg * 256 + fieldWord e).toNat = sg.toNat * 256 + e.toNat := by
    rw [boolWord_eq_ofNat, fieldWord_eq_ofNat]
    bv_omega
  have hlow : (fieldWord f).toNat = f.toNat := by
    rw [fieldWord_eq_ofNat]
    bv_omega
  apply BitVec.eq_of_toNat_eq
  rw [packOperands_toNat, packFields_toNat, hhigh, hlow]
  omega

/-! ### The value of a word -/

/-- R77: the model multiplies or divides by a natural power of two as the exponent reaches 150 or not; both are the one
integer power. -/
theorem ordVal_eq_zpow (x : Word) : ordVal x =
    (if sgnOf x then -1 else 1) * (mantOf x : ℚ) * (2 : ℚ) ^ (((expOf x).toNat : ℤ) - 127 - 23) := by
  have hmant : (if sgnOf x then -(mantOf x : ℚ) else mantOf x) = (if sgnOf x then -1 else 1) * (mantOf x : ℚ) := by
    cases sgnOf x <;> simp
  simp only [ordVal, hmant, Config.bias, Config.fracBits]
  split
  case isTrue hle =>
    have hexp : ((expOf x).toNat : ℤ) - 127 - 23 = ((expOf x).toNat - (127 + 23) : ℕ) := by omega
    rw [hexp, zpow_natCast, Nat.cast_pow, Nat.cast_ofNat]
  case isFalse hlt =>
    have hexp : ((expOf x).toNat : ℤ) - 127 - 23 = -(127 + 23 - (expOf x).toNat : ℕ) := by omega
    rw [hexp, zpow_neg, zpow_natCast, Nat.cast_pow, Nat.cast_ofNat, div_eq_mul_inv]

theorem val_of_isZero (h : isZero x = true) : val x = .finite 0 := if_pos h

theorem val_of_isNan (h : isNan x = true) : val x = .nan := by
  simp [val, isZero_of_isNan h, h]

theorem val_of_isInf (h : isInf x = true) : val x = if sgnOf x then .negInf else .posInf := by
  simp [val, isZero_of_isInf h, isNan_of_isInf h, h]

theorem val_of_isOrd (h : isOrd x = true) : val x = .finite (ordVal x) := by
  obtain ⟨hz, hi, hn⟩ := isOrd_iff.1 h
  simp [val, hz, hi, hn]

/-! ### The commands as arithmetic -/

variable {s : State}

theorem exec_fiszero_eq_test : exec .fiszero s =
    readOpa s fun a => complete (if a = 0x00000000 ∨ a = 0x80000000 then 1 else 0) false s := by
  simp only [exec_fiszero, boolWord_eq_ite isZero_iff_word, noFlag]

theorem exec_fisinf_eq_test : exec .fisinf s =
    readOpa s fun a => complete (if a = 0x7F800000 ∨ a = 0xFF800000 then 1 else 0) false s := by
  simp only [exec_fisinf, boolWord_eq_ite isInf_iff_word, noFlag]

theorem exec_fisnan_eq_test : exec .fisnan s =
    readOpa s fun a => complete (if 0x7F800000 < a.toNat % 2 ^ 31 then 1 else 0) false s := by
  simp only [exec_fisnan, boolWord_eq_ite isNan_iff_lt, noFlag]

theorem exec_fsgn_eq_field : exec .fsgn s =
    readOpa s fun a => complete (BitVec.ofNat 32 (a.toNat / 2 ^ 31)) false s := by
  simp only [exec_fsgn, boolWord_eq_ofNat, toNat_sgnOf, noFlag]

theorem exec_fexp_eq_field : exec .fexp s =
    readOpa s fun a => complete (BitVec.ofNat 32 (a.toNat / 2 ^ 23 % 2 ^ 8)) false s := by
  simp only [exec_fexp, fieldWord_eq_ofNat, expOf_toNat, noFlag]

theorem exec_ffrac_eq_field : exec .ffrac s =
    readOpa s fun a => complete (BitVec.ofNat 32 (a.toNat % 2 ^ 23)) false s := by
  simp only [exec_ffrac, fieldWord_eq_ofNat, fracOf_toNat, noFlag]

theorem exec_fpack_eq_word : exec .fpack s = readBoth s fun a b => complete
    (BitVec.ofNat 32 (a.toNat / 2 ^ 8 % 2 * 2 ^ 31 + a.toNat % 2 ^ 8 * 2 ^ 23 + b.toNat % 2 ^ 23)) false s := by
  simp only [exec_fpack, ← packOperands_toNat, BitVec.ofNat_toNat, BitVec.setWidth_eq, noFlag]

/-- A row of the table that completes with a constant, reading nothing, has the whole shape of such a command. -/
theorem constantCommand_of_exec {op : OpWord} {i : Instr} {r : Word} (hop : decodePlain op = some i)
    (hexec : ∀ s, exec i s = complete r false s) : ConstantCommand op i r :=
  ⟨fun _ => decode_of_decodePlain_some hop, fun s => (hexec s).trans (complete_frame r false s)⟩

/-- R88: "the largest finite value", `(2^24 - 1) * 2^104`. -/
theorem val_fmax : val 0x7F7FFFFF = .finite 340282346638528859811704183484516925440 := by
  have hsign : sgnOf 0x7F7FFFFF = false := by decide
  have hexp : (expOf 0x7F7FFFFF).toNat = 254 := by decide
  have hmant : mantOf 0x7F7FFFFF = 2 ^ 24 - 1 := by decide
  rw [val_of_isOrd (by decide), ordVal_eq_zpow, hsign, hexp, hmant]
  norm_num

/-- R89: the constant with fraction 1 and biased exponent 1. -/
theorem val_fmin : val 0x80800001 = .finite (-8388609 / 2 ^ 149) := by
  have hsign : sgnOf 0x80800001 = true := by decide
  have hexp : (expOf 0x80800001).toNat = 1 := by decide
  have hmant : mantOf 0x80800001 = 8388609 := by decide
  rw [val_of_isOrd (by decide), ordVal_eq_zpow, hsign, hexp, hmant]
  norm_num

/-! ### The obligations -/

/-- Settles O13: each class is a condition on the exponent and the fraction, which are quotients and remainders of the
word's value. -/
theorem classifierResults : Obligations.ClassifierResults :=
  ⟨unaryCommand_of_exec rfl fun _ => exec_fiszero_eq_test, unaryCommand_of_exec rfl fun _ => exec_fisinf_eq_test,
    unaryCommand_of_exec rfl fun _ => exec_fisnan_eq_test⟩

/-- Settles O14: no two of the conditions on the exponent and the fraction hold of one word, and `ORD` is the rest. -/
theorem classesPartitionWords : Obligations.ClassesPartitionWords := fun x =>
  ⟨isZero_iff, isInf_iff, isNan_iff, class_count x⟩

/-- Settles O15: each field is a quotient or a remainder of the word's value, and zero extension keeps it. -/
theorem fieldExtraction : Obligations.FieldExtraction :=
  ⟨unaryCommand_of_exec rfl fun _ => exec_fsgn_eq_field, unaryCommand_of_exec rfl fun _ => exec_fexp_eq_field,
    unaryCommand_of_exec rfl fun _ => exec_ffrac_eq_field⟩

/-- Settles O16: the fields of the operands as numbers make the packed word, and a word is its three fields. -/
theorem fpackBuildsWord : Obligations.FpackBuildsWord :=
  ⟨binaryCommand_of_exec rfl fun _ => exec_fpack_eq_word,
    fun x => (packOperands_fields _ _ _).trans (packFields_of_fields x)⟩

/-- Settles O17: the constants read nothing, and the two finite ones are ordinary words, so `val` is R77's formula. -/
theorem constantsComplete : Obligations.ConstantsComplete :=
  ⟨constantCommand_of_exec rfl fun _ => exec_fmax, constantCommand_of_exec rfl fun _ => exec_fmin,
    constantCommand_of_exec rfl fun _ => exec_finf, constantCommand_of_exec rfl fun _ => exec_fnan,
    val_fmax, val_fmin, by decide, by decide⟩

/-- Settles O18: in each class `val` takes its own branch, since the classes exclude each other. -/
theorem decodedValue : Obligations.DecodedValue := fun x =>
  ⟨val_of_isZero, val_of_isNan,
    fun hi hs => by simp [val_of_isInf hi, hs], fun hi hs => by simp [val_of_isInf hi, hs],
    fun ho => (val_of_isOrd ho).trans (congrArg _ (ordVal_eq_zpow x))⟩

end Sys2Proof.Machine
end

section
/-!
PROOFS of spec/44_float_arith.md: the shared stages `SHRR`, `PACK`, `ALIGN` and `NORM`; the four arithmetic functions, one
lemma for each row of classes and for each branch on ordinary operands; and the five commands.
-/

namespace Sys2Proof.Machine

/-! ### The rounding shift -/

variable {v k : Nat}

@[simp] theorem shrr_zero_shift (v : Nat) : shrr v 0 = v := by simp [shrr, Nat.mod_one]

theorem shrr_of_mod_eq_zero (h : v % 2 ^ k = 0) : shrr v k = v / 2 ^ k := by simp [shrr, h]

theorem shrr_of_mod_ne_zero (h : v % 2 ^ k ≠ 0) : shrr v k = v / 2 ^ k + 1 := by simp [shrr, h]

/-- R93: "When `k` is at least the width of a nonzero `v`, it returns 1." -/
theorem shrr_of_lt (hpos : 0 < v) (hlt : v < 2 ^ k) : shrr v k = 1 := by
  have hmod : v % 2 ^ k ≠ 0 := by rw [Nat.mod_eq_of_lt hlt]; omega
  rw [shrr_of_mod_ne_zero hmod, Nat.div_eq_of_lt hlt]

/-- R93: in units of `2^k` the shift covers its argument, and one unit less does not. -/
theorem shrr_mul_bounds (v k : Nat) : v ≤ shrr v k * 2 ^ k ∧ shrr v k * 2 ^ k < v + 2 ^ k := by
  have hdiv := Nat.div_add_mod' v (2 ^ k)
  have hlt := Nat.mod_lt v (Nat.two_pow_pos k)
  by_cases hmod : v % 2 ^ k = 0
  · rw [shrr_of_mod_eq_zero hmod]
    omega
  · rw [shrr_of_mod_ne_zero hmod, Nat.succ_mul]
    omega

/-! ### Packing -/

variable {u : Unpacked}

theorem signedZero_eq_ite (sg : Bool) : signedZero sg = if sg then 0x80000000 else 0x00000000 := by
  cases sg <;> rfl

theorem signedInf_eq_ite (sg : Bool) : signedInf sg = if sg then 0xFF800000 else 0x7F800000 := by
  cases sg <;> rfl

theorem pack_of_overflow (h : 255 ≤ u.exp) : pack u = (signedInf u.sign, true) := by
  simp [pack, exponentOverflow, h]

theorem pack_of_underflow (h : u.exp < 0) : pack u = (signedZero u.sign, false) := by
  have hover : ¬255 ≤ u.exp := by omega
  simp [pack, exponentOverflow, hover, h, noFlag]

theorem pack_of_inRange (hlo : 0 ≤ u.exp) (hhi : u.exp < 255) :
    pack u = (packFields u.sign (BitVec.ofInt 8 u.exp) (BitVec.ofNat 23 (u.mant - 2 ^ 23)), false) := by
  simp [pack, exponentOverflow, Int.not_le.2 hhi, Int.not_lt.2 hlo, noFlag]

theorem toNat_ofInt_exp {e : ℤ} (hlo : 0 ≤ e) (hhi : e < 255) : ((BitVec.ofInt 8 e).toNat : ℤ) = e := by
  rw [BitVec.toNat_ofInt]
  omega

/-- R94: the packed exponent is the one given. -/
theorem expOf_pack (hlo : 0 ≤ u.exp) (hhi : u.exp < 255) : ((expOf (pack u).1).toNat : ℤ) = u.exp := by
  rw [pack_of_inRange hlo hhi, expOf_packFields, toNat_ofInt_exp hlo hhi]

/-- R94: the implicit 1 that packing drops is the one that the mantissa of a word has. -/
theorem mantOf_pack (hlo : 0 ≤ u.exp) (hhi : u.exp < 255) (hm : 2 ^ 23 ≤ u.mant) (hm' : u.mant < 2 ^ 24) :
    mantOf (pack u).1 = u.mant := by
  rw [pack_of_inRange hlo hhi, mantOf, fracOf_packFields, BitVec.toNat_ofNat]
  omega

/-! ### Alignment -/

/-- R95: alignment is to the larger exponent; the operand that has it is shifted by 0, which changes nothing. -/
theorem align_eq_max (ea ma eb mb : Nat) :
    align ea ma eb mb = (max ea eb, shrr ma (max ea eb - ea), shrr mb (max ea eb - eb)) := by
  by_cases h : eb ≤ ea
  · simp [align, h]
  · have hle : ea ≤ eb := by omega
    simp [align, h, hle]

/-! ### Normalization -/

/-- R96: the shift of a nonzero 24-bit mantissa brings its first set bit to bit 23. -/
theorem fbi_add_log2_of_mant {mr : Nat} (hpos : 0 < mr) (hlt : mr < 2 ^ 24) :
    fbi (BitVec.ofNat 24 mr) + mr.log2 = 23 := by
  have hval : (BitVec.ofNat 24 mr).toNat = mr := by rw [BitVec.toNat_ofNat, Nat.mod_eq_of_lt hlt]
  have hne : BitVec.ofNat 24 mr ≠ 0 := fun h => hpos.ne' (by rw [← hval, h]; rfl)
  have hsum := fbi_add_log2 hne
  rw [hval] at hsum
  omega

/-- R96: "now `2^23 <= mr < 2^24`". -/
theorem norm_mant_bounds (e : ℤ) {mr : Nat} (hpos : 0 < mr) (hlt : mr < 2 ^ 24) :
    2 ^ 23 ≤ (norm e mr).2 ∧ (norm e mr).2 < 2 ^ 24 := by
  have hshift := fbi_add_log2_of_mant hpos hlt
  have hlow : 2 ^ mr.log2 ≤ mr := Nat.log2_self_le hpos.ne'
  have hhigh : mr < 2 ^ (mr.log2 + 1) := Nat.lt_log2_self
  constructor
  · calc 2 ^ 23 = 2 ^ mr.log2 * 2 ^ fbi (BitVec.ofNat 24 mr) := by rw [← pow_add, add_comm, hshift]
      _ ≤ mr * 2 ^ fbi (BitVec.ofNat 24 mr) := Nat.mul_le_mul_right _ hlow
  · calc mr * 2 ^ fbi (BitVec.ofNat 24 mr)
      _ < 2 ^ (mr.log2 + 1) * 2 ^ fbi (BitVec.ofNat 24 mr) := Nat.mul_lt_mul_of_pos_right hhigh (Nat.two_pow_pos _)
      _ = 2 ^ 24 := by rw [← pow_add, show mr.log2 + 1 + fbi (BitVec.ofNat 24 mr) = 24 by omega]

/-! ### The obligations about the stages -/

/-- Settles O24: `v` is its quotient by `2^k` and a remainder below `2^k`, which the added unit covers. -/
theorem roundingShiftCovers : Obligations.RoundingShiftCovers := fun v k =>
  ⟨shrr_zero_shift v, shrr_of_mod_eq_zero, shrr_of_mod_ne_zero, shrr_of_lt, shrr_mul_bounds v k⟩

/-- Settles O25: each range of the exponent is a branch of `PACK`, and within the range the fields hold what they are
given. -/
theorem packRanges : Obligations.PackRanges := fun sg _ _ hm hm' =>
  ⟨fun h => signedInf_eq_ite sg ▸ pack_of_overflow h, fun h => signedZero_eq_ite sg ▸ pack_of_underflow h,
    fun hlo hhi => ⟨by rw [pack_of_inRange hlo hhi, sgnOf_packFields], expOf_pack hlo hhi, mantOf_pack hlo hhi hm hm',
      by rw [pack_of_inRange hlo hhi]⟩⟩

/-- Settles O27: the shift is `FBI`, which takes the first set bit of the mantissa to bit 23. -/
theorem normalizationShift : Obligations.NormalizationShift := fun e _ hpos hlt =>
  ⟨(norm_mant_bounds e hpos hlt).1, (norm_mant_bounds e hpos hlt).2, _, rfl, rfl⟩

/-! ### The classes of the operands -/

variable {a b x : Word}

theorem isZero_of_isOrd (h : isOrd x = true) : isZero x = false := (isOrd_iff.1 h).1

theorem isInf_of_isOrd (h : isOrd x = true) : isInf x = false := (isOrd_iff.1 h).2.1

theorem isNan_of_isOrd (h : isOrd x = true) : isNan x = false := (isOrd_iff.1 h).2.2

/-- The condition that R92 puts before every other case of the four functions. -/
theorem isNan_or_isNan (h : isNan a = true ∨ isNan b = true) : (isNan a || isNan b) = true := by simpa using h

/-! ### `FADD` by class -/

theorem faddFn_of_isNan (h : isNan a = true ∨ isNan b = true) : faddFn a b = (canonNan, false) :=
  if_pos (isNan_or_isNan h)

theorem faddFn_of_isInf_isInf_same (ha : isInf a = true) (hb : isInf b = true) (hs : sgnOf a = sgnOf b) :
    faddFn a b = (a, false) := by
  simp [faddFn, isNan_of_isInf ha, isNan_of_isInf hb, ha, hb, hs, noFlag]

theorem faddFn_of_isInf_isInf_opposite (ha : isInf a = true) (hb : isInf b = true) (hs : sgnOf a ≠ sgnOf b) :
    faddFn a b = (canonNan, false) := by
  simp [faddFn, isNan_of_isInf ha, isNan_of_isInf hb, ha, hb, hs, noFlag]

theorem faddFn_of_isInf_left (ha : isInf a = true) (hb : isInf b = false) (hn : isNan b = false) :
    faddFn a b = (a, false) := by
  simp [faddFn, isNan_of_isInf ha, ha, hb, hn, noFlag]

theorem faddFn_of_isInf_right (hb : isInf b = true) (ha : isInf a = false) (hn : isNan a = false) :
    faddFn a b = (b, false) := by
  simp [faddFn, isNan_of_isInf hb, ha, hb, hn, noFlag]

theorem faddFn_of_isZero_isZero (ha : isZero a = true) (hb : isZero b = true) :
    faddFn a b = (signedZero (sgnOf a && sgnOf b), false) := by
  simp [faddFn, isNan_of_isZero ha, isNan_of_isZero hb, isInf_of_isZero ha, isInf_of_isZero hb, ha, hb, noFlag]

theorem faddFn_of_isZero_isOrd (ha : isZero a = true) (hb : isOrd b = true) : faddFn a b = (b, false) := by
  obtain ⟨hz, hi, hn⟩ := isOrd_iff.1 hb
  simp [faddFn, isNan_of_isZero ha, isInf_of_isZero ha, ha, hz, hi, hn, noFlag]

theorem faddFn_of_isOrd_isZero (ha : isOrd a = true) (hb : isZero b = true) : faddFn a b = (a, false) := by
  obtain ⟨hz, hi, hn⟩ := isOrd_iff.1 ha
  simp [faddFn, isNan_of_isZero hb, isInf_of_isZero hb, hb, hz, hi, hn, noFlag]

theorem faddFn_of_addOrdinary_none (ha : isOrd a = true) (hb : isOrd b = true) (h : addOrdinary a b = none) :
    faddFn a b = (0x00000000, false) := by
  obtain ⟨hza, hia, hna⟩ := isOrd_iff.1 ha
  obtain ⟨hzb, hib, hnb⟩ := isOrd_iff.1 hb
  simp [faddFn, hza, hia, hna, hzb, hib, hnb, h, noFlag]

theorem faddFn_of_addOrdinary_some (ha : isOrd a = true) (hb : isOrd b = true) (h : addOrdinary a b = some u) :
    faddFn a b = pack u := by
  obtain ⟨hza, hia, hna⟩ := isOrd_iff.1 ha
  obtain ⟨hzb, hib, hnb⟩ := isOrd_iff.1 hb
  simp [faddFn, hza, hia, hna, hzb, hib, hnb, h]

/-! ### Ordinary operands of `FADD`, by their aligned mantissas -/

section AlignedMantissas

variable {e ma mb : Nat} (haligned : align (expOf a).toNat (mantOf a) (expOf b).toNat (mantOf b) = (e, ma, mb))
include haligned

theorem addOrdinary_of_sum_lt (hs : sgnOf a = sgnOf b) (h : ma + mb < 2 ^ 24) :
    addOrdinary a b = some ⟨sgnOf a, e, ma + mb⟩ := by
  simp only [addOrdinary, haligned, if_pos hs, if_neg (Nat.not_le.2 h)]

theorem addOrdinary_of_le_sum (hs : sgnOf a = sgnOf b) (h : 2 ^ 24 ≤ ma + mb) :
    addOrdinary a b = some ⟨sgnOf a, e + 1, shrr (ma + mb) 1⟩ := by
  simp only [addOrdinary, haligned, if_pos hs, if_pos h]

/-- R97: "exact cancellation -> +0". -/
theorem addOrdinary_of_cancel (hs : sgnOf a ≠ sgnOf b) (h : ma = mb) : addOrdinary a b = none := by
  simp [addOrdinary, haligned, hs, h]

theorem addOrdinary_of_right_lt (hs : sgnOf a ≠ sgnOf b) (h : mb < ma) :
    addOrdinary a b = some ⟨sgnOf a, (norm e (ma - mb)).1, (norm e (ma - mb)).2⟩ := by
  have hne : ma - mb ≠ 0 := by omega
  simp only [addOrdinary, haligned, if_neg hs, if_pos (Nat.le_of_lt h), if_neg hne]

theorem addOrdinary_of_left_lt (hs : sgnOf a ≠ sgnOf b) (h : ma < mb) :
    addOrdinary a b = some ⟨sgnOf b, (norm e (mb - ma)).1, (norm e (mb - ma)).2⟩ := by
  have hne : mb - ma ≠ 0 := by omega
  simp only [addOrdinary, haligned, if_neg hs, if_neg (Nat.not_le.2 h), if_neg hne]

end AlignedMantissas

/-! ### The flipped operand of `FSUB` -/

/-- R98: flipping the sign is an exclusive or with the sign bit, for every word. -/
theorem flipSign_eq_xor (x : Word) : flipSign x = x ^^^ 0x80000000 := by
  have hsign : sgnOf (x ^^^ 0x80000000) = !sgnOf x := by simp [sgnOf]
  have hexp : expOf (x ^^^ 0x80000000) = expOf x := by
    rw [expOf, BitVec.extractLsb'_xor]
    exact BitVec.xor_zero
  have hfrac : fracOf (x ^^^ 0x80000000) = fracOf x := by
    rw [fracOf, BitVec.extractLsb'_xor]
    exact BitVec.xor_zero
  rw [← packFields_of_fields (x ^^^ 0x80000000), hsign, hexp, hfrac, flipSign]

@[simp] theorem sgnOf_flipSign (x : Word) : sgnOf (flipSign x) = !sgnOf x := sgnOf_packFields ..

@[simp] theorem expOf_flipSign (x : Word) : expOf (flipSign x) = expOf x := expOf_packFields ..

@[simp] theorem fracOf_flipSign (x : Word) : fracOf (flipSign x) = fracOf x := fracOf_packFields ..

@[simp] theorem mantOf_flipSign (x : Word) : mantOf (flipSign x) = mantOf x := by simp [mantOf]

@[simp] theorem isNan_flipSign (x : Word) : isNan (flipSign x) = isNan x := by simp [isNan]

/-- R98: no class depends on the sign. -/
@[simp] theorem isOrd_flipSign (x : Word) : isOrd (flipSign x) = isOrd x := by simp [isOrd, isZero, isInf, isNan]

/-- R98: "`x - x` gives `+0` for every ordinary `x`", since equal exponents leave both mantissas as they are. -/
theorem fsubFn_self (h : isOrd x = true) : fsubFn x x = (0x00000000, false) := by
  have hflip : isOrd (flipSign x) = true := by rw [isOrd_flipSign, h]
  have haligned : align (expOf x).toNat (mantOf x) (expOf (flipSign x)).toNat (mantOf (flipSign x)) =
      ((expOf x).toNat, mantOf x, mantOf x) := by simp [align_eq_max]
  exact faddFn_of_addOrdinary_none h hflip (addOrdinary_of_cancel haligned (by simp) rfl)

/-! ### `FMUL` by class -/

theorem fmulFn_of_isNan (h : isNan a = true ∨ isNan b = true) : fmulFn a b = (canonNan, false) :=
  if_pos (isNan_or_isNan h)

theorem fmulFn_of_isInf_isZero (ha : isInf a = true) (hb : isZero b = true) : fmulFn a b = (canonNan, false) := by
  simp [fmulFn, isNan_of_isInf ha, isNan_of_isZero hb, ha, hb, noFlag]

theorem fmulFn_of_isZero_isInf (ha : isZero a = true) (hb : isInf b = true) : fmulFn a b = (canonNan, false) := by
  simp [fmulFn, isNan_of_isZero ha, isNan_of_isInf hb, ha, hb, noFlag]

theorem fmulFn_of_isInf_left (ha : isInf a = true) (hb : isZero b = false) (hn : isNan b = false) :
    fmulFn a b = (signedInf (sgnOf a ^^ sgnOf b), false) := by
  simp [fmulFn, isNan_of_isInf ha, isZero_of_isInf ha, ha, hb, hn, noFlag]

theorem fmulFn_of_isInf_right (hb : isInf b = true) (ha : isZero a = false) (hn : isNan a = false) :
    fmulFn a b = (signedInf (sgnOf a ^^ sgnOf b), false) := by
  simp [fmulFn, isNan_of_isInf hb, isZero_of_isInf hb, ha, hb, hn, noFlag]

theorem fmulFn_of_isZero_left (ha : isZero a = true) (hb : isInf b = false) (hn : isNan b = false) :
    fmulFn a b = (signedZero (sgnOf a ^^ sgnOf b), false) := by
  simp [fmulFn, isNan_of_isZero ha, isInf_of_isZero ha, ha, hb, hn, noFlag]

theorem fmulFn_of_isZero_right (hb : isZero b = true) (ha : isInf a = false) (hn : isNan a = false) :
    fmulFn a b = (signedZero (sgnOf a ^^ sgnOf b), false) := by
  simp [fmulFn, isNan_of_isZero hb, isInf_of_isZero hb, ha, hb, hn, noFlag]

theorem fmulFn_of_isOrd (ha : isOrd a = true) (hb : isOrd b = true) : fmulFn a b = pack (mulOrdinary a b) := by
  obtain ⟨hza, hia, hna⟩ := isOrd_iff.1 ha
  obtain ⟨hzb, hib, hnb⟩ := isOrd_iff.1 hb
  simp [fmulFn, hza, hia, hna, hzb, hib, hnb]

/-! ### Ordinary operands of `FMUL`, by their exact product -/

/-- R99: a product of two mantissas, shifted by 24, leaves no carry out of the mantissa. -/
theorem shrr_mantOf_mul_lt (a b : Word) : shrr (mantOf a * mantOf b) 24 < 2 ^ 24 := by
  have ha : mantOf a ≤ 2 ^ 24 - 1 := Nat.le_pred_of_lt (mantOf_bounds a).2
  have hb : mantOf b ≤ 2 ^ 24 - 1 := Nat.le_pred_of_lt (mantOf_bounds b).2
  have hprod : mantOf a * mantOf b ≤ (2 ^ 24 - 1) * (2 ^ 24 - 1) := Nat.mul_le_mul ha hb
  have hcover := (shrr_mul_bounds (mantOf a * mantOf b) 24).2
  omega

theorem mulOrdinary_of_le (h : 2 ^ 47 ≤ mantOf a * mantOf b) : mulOrdinary a b =
    ⟨sgnOf a ^^ sgnOf b, ((expOf a).toNat : ℤ) + (expOf b).toNat - 127 + 1, shrr (mantOf a * mantOf b) 24⟩ := by
  simp only [mulOrdinary, if_pos h, if_neg (shrr_mantOf_mul_lt a b).ne, Config.bias, Nat.cast_ofNat]

theorem mulOrdinary_of_lt (h : mantOf a * mantOf b < 2 ^ 47) (hcarry : shrr (mantOf a * mantOf b) 23 ≠ 2 ^ 24) :
    mulOrdinary a b =
      ⟨sgnOf a ^^ sgnOf b, ((expOf a).toNat : ℤ) + (expOf b).toNat - 127, shrr (mantOf a * mantOf b) 23⟩ := by
  simp only [mulOrdinary, if_neg (Nat.not_le.2 h), if_neg hcarry, Config.bias, Nat.cast_ofNat]

/-- R99: "the rounding carried out". -/
theorem mulOrdinary_of_carry (h : mantOf a * mantOf b < 2 ^ 47) (hcarry : shrr (mantOf a * mantOf b) 23 = 2 ^ 24) :
    mulOrdinary a b = ⟨sgnOf a ^^ sgnOf b, ((expOf a).toNat : ℤ) + (expOf b).toNat - 127 + 1, 2 ^ 23⟩ := by
  simp only [mulOrdinary, if_neg (Nat.not_le.2 h), if_pos hcarry, Config.bias, Nat.cast_ofNat]

/-! ### `FDIV` by class -/

theorem fdivFn_of_isNan (h : isNan a = true ∨ isNan b = true) : fdivFn a b = (canonNan, false) :=
  if_pos (isNan_or_isNan h)

theorem fdivFn_of_isZero_isZero (ha : isZero a = true) (hb : isZero b = true) : fdivFn a b = (canonNan, false) := by
  simp [fdivFn, isNan_of_isZero ha, isNan_of_isZero hb, ha, hb, noFlag]

theorem fdivFn_of_isInf_isInf (ha : isInf a = true) (hb : isInf b = true) : fdivFn a b = (canonNan, false) := by
  simp [fdivFn, isNan_of_isInf ha, isNan_of_isInf hb, isZero_of_isInf ha, isZero_of_isInf hb, ha, hb, noFlag]

/-- R100: "x/0 → signed infinity". -/
theorem fdivFn_of_isZero_right (hb : isZero b = true) (ha : isZero a = false) (hn : isNan a = false) :
    fdivFn a b = (signedInf (sgnOf a ^^ sgnOf b), false) := by
  simp [fdivFn, isNan_of_isZero hb, ha, hb, hn, noFlag]

theorem fdivFn_of_isInf_isOrd (ha : isInf a = true) (hb : isOrd b = true) :
    fdivFn a b = (signedInf (sgnOf a ^^ sgnOf b), false) := by
  obtain ⟨hz, hi, hn⟩ := isOrd_iff.1 hb
  simp [fdivFn, isNan_of_isInf ha, ha, hz, hi, hn, noFlag]

theorem fdivFn_of_isInf_right (hb : isInf b = true) (ha : isInf a = false) (hn : isNan a = false) :
    fdivFn a b = (signedZero (sgnOf a ^^ sgnOf b), false) := by
  simp [fdivFn, isNan_of_isInf hb, isZero_of_isInf hb, ha, hb, hn, noFlag]

theorem fdivFn_of_isZero_isOrd (ha : isZero a = true) (hb : isOrd b = true) :
    fdivFn a b = (signedZero (sgnOf a ^^ sgnOf b), false) := by
  obtain ⟨hz, hi, hn⟩ := isOrd_iff.1 hb
  simp [fdivFn, isNan_of_isZero ha, isInf_of_isZero ha, ha, hz, hi, hn, noFlag]

theorem fdivFn_of_isOrd (ha : isOrd a = true) (hb : isOrd b = true) : fdivFn a b = pack (divOrdinary a b) := by
  obtain ⟨hza, hia, hna⟩ := isOrd_iff.1 ha
  obtain ⟨hzb, hib, hnb⟩ := isOrd_iff.1 hb
  simp [fdivFn, hza, hia, hna, hzb, hib, hnb]

/-! ### Ordinary operands of `FDIV`, by their truncated quotient -/

/-- R100: the 48-bit divider holds a mantissa shifted left by at most 24, so it divides the exact numbers. -/
theorem toNat_divr_mantOf (a b : Word) {k : Nat} (hk : k ≤ 24) :
    (divr (BitVec.ofNat 48 (mantOf a * 2 ^ k)) (BitVec.ofNat 48 (mantOf b))).toNat = mantOf a * 2 ^ k / mantOf b := by
  have hb := mantOf_bounds b
  have ha : mantOf a * 2 ^ k < 2 ^ 48 :=
    calc mantOf a * 2 ^ k < 2 ^ 24 * 2 ^ k := Nat.mul_lt_mul_of_pos_right (mantOf_bounds a).2 (Nat.two_pow_pos k)
      _ ≤ 2 ^ 24 * 2 ^ 24 := Nat.mul_le_mul_left _ (Nat.pow_le_pow_right (by decide) hk)
  have hval : (BitVec.ofNat 48 (mantOf b)).toNat = mantOf b := by
    rw [BitVec.toNat_ofNat]
    omega
  have hne : BitVec.ofNat 48 (mantOf b) ≠ 0 := fun h => by
    rw [h, BitVec.ofNat_eq_ofNat, BitVec.toNat_zero] at hval
    omega
  rw [toNat_divr _ hne, hval, BitVec.toNat_ofNat, Nat.mod_eq_of_lt ha]

theorem divOrdinary_of_le (h : mantOf b ≤ mantOf a) : divOrdinary a b =
    ⟨sgnOf a ^^ sgnOf b, ((expOf a).toNat : ℤ) - (expOf b).toNat + 127, mantOf a * 2 ^ 23 / mantOf b⟩ := by
  simp only [divOrdinary, if_pos h, toNat_divr_mantOf a b (Nat.le_succ 23), Config.bias, Nat.cast_ofNat]

theorem divOrdinary_of_lt (h : mantOf a < mantOf b) : divOrdinary a b =
    ⟨sgnOf a ^^ sgnOf b, ((expOf a).toNat : ℤ) - (expOf b).toNat + 126, mantOf a * 2 ^ 24 / mantOf b⟩ := by
  simp only [divOrdinary, if_neg (Nat.not_le.2 h), toNat_divr_mantOf a b (Nat.le_refl 24)]

/-! ### NaN results -/

/-- R92: a word is the canonical NaN if it is a NaN at all. -/
def NanCanonical (w : Word) : Prop := isNan w = true → w = canonNan

theorem nanCanonical_canonNan : NanCanonical canonNan := fun _ => rfl

theorem nanCanonical_of_not_isNan (h : isNan x = false) : NanCanonical x := fun hn => by simp [h] at hn

theorem nanCanonical_signedZero (sg : Bool) : NanCanonical (signedZero sg) :=
  nanCanonical_of_not_isNan (by cases sg <;> rfl)

theorem nanCanonical_signedInf (sg : Bool) : NanCanonical (signedInf sg) :=
  nanCanonical_of_not_isNan (by cases sg <;> rfl)

/-- R94: `PACK` makes no NaN, whatever it packs: with exponent 255 it packs the fraction 0. -/
theorem nanCanonical_pack (u : Unpacked) : NanCanonical (pack u).1 := by
  rcases lt_or_ge u.exp 0 with hlo | hlo
  · rw [pack_of_underflow hlo]
    exact nanCanonical_signedZero u.sign
  · rcases lt_or_ge u.exp 255 with hhi | hhi
    · intro hn
      have hexp := expOf_pack hlo hhi
      rw [isNan_iff] at hn
      omega
    · rw [pack_of_overflow hhi]
      exact nanCanonical_signedInf u.sign

theorem nanCanonical_faddFn (a b : Word) : NanCanonical (faddFn a b).1 := by
  by_cases hn : isNan a = true ∨ isNan b = true
  · rw [faddFn_of_isNan hn]
    exact nanCanonical_canonNan
  · obtain ⟨ha, hb⟩ : isNan a = false ∧ isNan b = false := by simpa using hn
    have hca := nanCanonical_of_not_isNan ha
    have hcb := nanCanonical_of_not_isNan hb
    simp only [faddFn, ha, hb, Bool.or_self, Bool.false_eq_true, if_false]
    split_ifs
    · exact hca
    · exact nanCanonical_canonNan
    · exact hca
    · exact hcb
    · exact nanCanonical_signedZero _
    · exact hcb
    · exact hca
    · cases addOrdinary a b with
      | none => exact nanCanonical_signedZero false
      | some u => exact nanCanonical_pack u

theorem nanCanonical_fmulFn (a b : Word) : NanCanonical (fmulFn a b).1 := by
  simp only [fmulFn]
  split_ifs
  · exact nanCanonical_canonNan
  · exact nanCanonical_canonNan
  · exact nanCanonical_signedInf _
  · exact nanCanonical_signedZero _
  · exact nanCanonical_pack _

theorem nanCanonical_fdivFn (a b : Word) : NanCanonical (fdivFn a b).1 := by
  simp only [fdivFn]
  split_ifs
  · exact nanCanonical_canonNan
  · exact nanCanonical_canonNan
  · exact nanCanonical_signedInf _
  · exact nanCanonical_canonNan
  · exact nanCanonical_signedInf _
  · exact nanCanonical_signedZero _
  · exact nanCanonical_signedZero _
  · exact nanCanonical_pack _

/-! ### The obligations about the commands -/

/-- Settles O28: the NaN operands are the first branch of each function, and every later branch gives the canonical NaN,
an operand that is no NaN, a zero, an infinity, or what `PACK` makes, which is never a NaN. -/
theorem nanResultsCanonical : Obligations.NanResultsCanonical := by
  intro f hf a b
  simp only [List.mem_cons, List.not_mem_nil, or_false] at hf
  obtain rfl | rfl | rfl | rfl := hf
  · exact ⟨faddFn_of_isNan, nanCanonical_faddFn a b⟩
  · exact ⟨fun h => faddFn_of_isNan (by rwa [isNan_flipSign]), nanCanonical_faddFn a (flipSign b)⟩
  · exact ⟨fmulFn_of_isNan, nanCanonical_fmulFn a b⟩
  · exact ⟨fdivFn_of_isNan, nanCanonical_fdivFn a b⟩

/-- Settles O29: one branch of `FADD` for each row of classes, and for ordinary operands one branch for each way the
aligned mantissas compare. -/
theorem faddMeaning : Obligations.FaddMeaning := by
  refine ⟨binaryCommand_of_exec rfl fun _ => exec_fadd, fun a b => ⟨faddFn_of_isNan, faddFn_of_isInf_isInf_same,
    faddFn_of_isInf_isInf_opposite, faddFn_of_isInf_left, faddFn_of_isInf_right, fun ha hb => ?_, faddFn_of_isZero_isOrd,
    faddFn_of_isOrd_isZero, fun ha hb e ma mb he hma hmb => ?_⟩⟩
  · simp only [faddFn_of_isZero_isZero ha hb, signedZero_eq_ite, Bool.and_eq_true]
  · have haligned : align (expOf a).toNat (mantOf a) (expOf b).toNat (mantOf b) = (e, ma, mb) := by
      rw [align_eq_max, hma, hmb, he]
    exact ⟨fun hs h => faddFn_of_addOrdinary_some ha hb (addOrdinary_of_sum_lt haligned hs h),
      fun hs h => faddFn_of_addOrdinary_some ha hb (addOrdinary_of_le_sum haligned hs h),
      fun hs h => faddFn_of_addOrdinary_none ha hb (addOrdinary_of_cancel haligned hs h),
      fun hs h => faddFn_of_addOrdinary_some ha hb (addOrdinary_of_right_lt haligned hs h),
      fun hs h => faddFn_of_addOrdinary_some ha hb (addOrdinary_of_left_lt haligned hs h)⟩

theorem fsubFn_eq_faddFn_xor (a b : Word) : fsubFn a b = faddFn a (b ^^^ 0x80000000) := by
  rw [fsubFn, flipSign_eq_xor]

/-- Settles O30: the flip is an exclusive or with the sign bit, and a word and its flipped self cancel exactly. -/
theorem fsubMeaning : Obligations.FsubMeaning :=
  ⟨binaryCommand_of_exec rfl fun _ => by simp only [exec_fsub, fsubFn_eq_faddFn_xor],
    fun x h => fsubFn_eq_faddFn_xor x x ▸ fsubFn_self h⟩

/-- Settles O31: one branch of `FMUL` for each row of classes, and for ordinary operands the exact product with or without
the extra integer bit and the rounding carry. -/
theorem fmulMeaning : Obligations.FmulMeaning := by
  refine ⟨binaryCommand_of_exec rfl fun _ => exec_fmul, fun a b => ⟨fmulFn_of_isNan, fmulFn_of_isInf_isZero,
    fmulFn_of_isZero_isInf, ?_⟩⟩
  rintro sg rfl
  simp only [← signedInf_eq_ite, ← signedZero_eq_ite]
  refine ⟨?_, fun ha hb => fmulFn_of_isInf_right hb (isZero_of_isOrd ha) (isNan_of_isOrd ha), ?_,
    fun ha hb => fmulFn_of_isZero_right hb (isInf_of_isOrd ha) (isNan_of_isOrd ha), ?_⟩
  · rintro ha (hb | hb)
    · exact fmulFn_of_isInf_left ha (isZero_of_isInf hb) (isNan_of_isInf hb)
    · exact fmulFn_of_isInf_left ha (isZero_of_isOrd hb) (isNan_of_isOrd hb)
  · rintro ha (hb | hb)
    · exact fmulFn_of_isZero_left ha (isInf_of_isZero hb) (isNan_of_isZero hb)
    · exact fmulFn_of_isZero_left ha (isInf_of_isOrd hb) (isNan_of_isOrd hb)
  · rintro ha hb e p rfl rfl
    rw [fmulFn_of_isOrd ha hb]
    exact ⟨fun h => congrArg pack (mulOrdinary_of_le h), fun h hcarry => congrArg pack (mulOrdinary_of_lt h hcarry),
      fun h hcarry => congrArg pack (mulOrdinary_of_carry h hcarry)⟩

/-- Settles O32: one branch of `FDIV` for each row of classes, and for ordinary operands the divider's quotient, which is
that of the exact mantissas. -/
theorem fdivMeaning : Obligations.FdivMeaning := by
  refine ⟨binaryCommand_of_exec rfl fun _ => exec_fdiv, fun a b => ⟨fdivFn_of_isNan, fdivFn_of_isZero_isZero,
    fdivFn_of_isInf_isInf, ?_⟩⟩
  rintro sg rfl
  simp only [← signedInf_eq_ite, ← signedZero_eq_ite]
  refine ⟨?_, fdivFn_of_isInf_isOrd, ?_, fdivFn_of_isZero_isOrd, fun ha hb => ?_⟩
  · rintro (ha | ha) hb
    · exact fdivFn_of_isZero_right hb (isZero_of_isInf ha) (isNan_of_isInf ha)
    · exact fdivFn_of_isZero_right hb (isZero_of_isOrd ha) (isNan_of_isOrd ha)
  · rintro (ha | ha) hb
    · exact fdivFn_of_isInf_right hb (isInf_of_isZero ha) (isNan_of_isZero ha)
    · exact fdivFn_of_isInf_right hb (isInf_of_isOrd ha) (isNan_of_isOrd ha)
  · rw [fdivFn_of_isOrd ha hb]
    exact ⟨fun h => congrArg pack (divOrdinary_of_le h), fun h => congrArg pack (divOrdinary_of_lt h)⟩

/-- R101: equalization of two words of one width keeps both, so the comparison is of the words. -/
theorem eqN_iff_eq {n : Nat} {v w : BitVec n} : eqN v w = true ↔ v = w := eqN_iff.trans BitVec.toNat_inj

/-- Settles O33: the comparison is equality of words, and no flag is returned. -/
theorem feqResult : Obligations.FeqResult :=
  binaryCommand_of_exec rfl fun _ => by simp only [exec_feq, boolWord_eq_ite eqN_iff_eq, noFlag]

end Sys2Proof.Machine
end

section
/-!
PROOFS of spec/60_exceptions.md: what a step does at the front of a stream that begins with a command word, and the two
ways a command that ends can end, with `OK` or with the raise of `DIV`.
-/

namespace Sys2Proof.Machine

variable {s t : State} {op : OpWord} {i : Instr} {rest ws : List HostEvent}

/-! ### The step at a command word -/

/-- R38, R39: the words of a command read as that command, whatever follows them. -/
theorem decode_encode_append (i : Instr) (rest : List HostEvent) : decode (encode i ++ rest) = .instr i rest := by
  cases hd : i.dataWord with
  | none => simpa [encode_of_plain hd] using decode_of_decodePlain_some (decodePlain_opcode hd)
  | some d => simpa [encode_of_data hd] using decode_of_decodeData_some (decodeData_opcode hd)

/-- R36, R39: at a command word the decoder reads a whole command and the words it reads are that command's, or a
reserved word alone, or it lacks the data word. -/
theorem decode_command_cases (op : OpWord) (rest : List HostEvent) :
    (∃ i rest', decode (.command op :: rest) = .instr i rest' ∧ .command op :: rest = encode i ++ rest') ∨
    decode (.command op :: rest) = .reserved op rest ∨ decode (.command op :: rest) = .partialCommand op := by
  cases ht : takesData op with
  | false =>
    cases hp : decodePlain op with
    | none => exact .inr (.inl (decode_of_no_format ht hp))
    | some i =>
      obtain ⟨rfl, hd⟩ := decodePlain_some hp
      exact .inl ⟨i, rest, decode_of_decodePlain_some hp, by simp [encode_of_plain hd]⟩
  | true =>
    cases rest with
    | nil => exact .inr (.inr (by simp [decode, ht]))
    | cons e rest =>
      cases e with
      | data d =>
        obtain ⟨i, hi⟩ := exists_decodeData_of_takesData d ht
        obtain ⟨rfl, hd⟩ := decodeData_some hi
        exact .inl ⟨i, rest, decode_of_decodeData_some hi, by simp [encode_of_data hd]⟩
      | command _ | read _ | reset => exact .inr (.inr (by simp [decode, ht]))

/-- R43: a step at a whole command is that command, with the stream past its words. -/
theorem step_of_decode_instr (h : decode s.host = .instr i rest) : step s = exec i (s.withHost rest) := by
  simp only [step, h]

theorem step_of_host_eq_encode (h : s.host = encode i ++ rest) : step s = exec i (s.withHost rest) :=
  step_of_decode_instr (h ▸ decode_encode_append i rest)

@[simp] theorem firstUnwritten_withHost (rs : List Reg) : (s.withHost ws).firstUnwritten rs = s.firstUnwritten rs := by
  simp [State.firstUnwritten]

/-! ### The raise of `DIV` -/

/-- R103, R104: a command that ends in a next state completes with `OK`, unless it is `DIV` with a zero divisor, which
writes `STATUS` alone. -/
theorem exec_next_ok_or_raise (h : exec i s = .next t) :
    (¬(i = .div ∧ s.opb = 0) ∧ t.status = .ok) ∨ (i = .div ∧ s.opb = 0 ∧ t = s.setStatus .divzero) := by
  obtain ⟨hw, d, rfl⟩ | ⟨hw, d, rfl⟩ | ⟨-, hz, r, v, rfl⟩ | ⟨hi, -, -, hz, rfl⟩ := exec_next_cases h
  · exact .inl ⟨fun ⟨hi, _⟩ => by simp [hi, writes] at hw, rfl⟩
  · exact .inl ⟨fun ⟨hi, _⟩ => by simp [hi, writes] at hw, rfl⟩
  · exact .inl ⟨fun ⟨hi, h₀⟩ => hz hi h₀, rfl⟩
  · exact .inr ⟨hi, hz, rfl⟩

theorem exec_next_divzero_iff (h : exec i s = .next t) : t.status = .divzero ↔ i = .div ∧ s.opb = 0 := by
  obtain ⟨hn, hok⟩ | ⟨hi, hz, rfl⟩ := exec_next_ok_or_raise h
  · exact iff_of_false (by simp [hok]) hn
  · exact iff_of_true rfl ⟨hi, hz⟩

theorem exec_next_ok_iff (h : exec i s = .next t) : t.status = .ok ↔ ¬(i = .div ∧ s.opb = 0) := by
  obtain ⟨hn, hok⟩ | ⟨hi, hz, rfl⟩ := exec_next_ok_or_raise h
  · exact iff_of_true hok hn
  · simp [hi, hz]

/-! ### The obligations -/

/-- Settles O46: a reserved word is decoded before any register is checked; a command faults on the first register it
lacks, and one that lacks none ends in a next state, whose status says whether `DIV` raised. -/
theorem checksInOrder : Obligations.ChecksInOrder := by
  refine ⟨fun s op rest h hs => ⟨_, step_of_isReserved h hs, rfl⟩, fun s i rest hs => ?_⟩
  rw [step_of_host_eq_encode hs, ← firstUnwritten_withHost (ws := rest)]
  refine ⟨fun r hr => exec_of_unwritten hr, fun hready hi hz => ?_, fun hready hn => ?_⟩
  · obtain ⟨t, ht⟩ := exec_of_ready hready
    exact ⟨t, ht, (exec_next_divzero_iff ht).2 ⟨hi, hz⟩⟩
  · obtain ⟨t, ht⟩ := exec_of_ready hready
    exact ⟨t, ht, (exec_next_ok_iff ht).2 hn⟩

/-- Settles O48: the raise of `DIV` writes `STATUS` alone, and every other end of a command is a completion with `OK`. -/
theorem divzeroOnlyFromDiv : Obligations.DivzeroOnlyFromDiv :=
  ⟨fun s ha hb hz => (exec_div_of_zero ha hb hz).trans (raise_frame .divzero s), fun _ _ _ => exec_next_divzero_iff⟩

/-- Settles O50: a step at a command word raises at a reserved word or at `DIV`, and each is one word long and writes
`STATUS` alone. -/
theorem raisesArePrecise : Obligations.RaisesArePrecise := by
  intro s t op rest hs h hraise
  obtain ⟨i, rest', hd, hw⟩ | hd | hd := decode_command_cases op rest
  · rw [step_of_decode_instr (hs ▸ hd)] at h
    obtain ⟨-, hok⟩ | ⟨rfl, -, rfl⟩ := exec_next_ok_or_raise h
    · simp [hok] at hraise
    · obtain rfl : rest = rest' := (List.cons.inj hw).2
      rfl
  · simp only [step, hs, hd, raise_next_iff] at h
    subst h
    rfl
  · simp [step, hs, hd] at h

end Sys2Proof.Machine
end

section
/-!
PROOFS of spec/30_encoding.md and spec/70_reset_and_hazards.md about single steps: the decoder against the encoder, what a
step takes off the host's stream, and what a host read and a reset answer.
-/

namespace Sys2Proof.Machine

variable {s t : State} {i : Instr} {rest : List HostEvent}

/-! ### The decoder against the encoder -/

/-- What a stream begins with when the decoder reads this of it. -/
def FrontOf (ws : List HostEvent) : Decoded → Prop
  | .idle => ws = []
  | .instr i rest => ws = encode i ++ rest
  | .reserved op rest => ws = .command op :: rest
  | .read r rest => ws = .read r :: rest
  | .reset rest => ws = .reset :: rest
  | .partialCommand op => ∃ rest, ws = .command op :: rest
  | .strayData d => ∃ rest, ws = .data d :: rest

/-- R36, R39: whatever the decoder reads, it reads of the words at the front of the stream. -/
theorem frontOf_decode (ws : List HostEvent) : FrontOf ws (decode ws) := by
  cases ws with
  | nil => rfl
  | cons e ws =>
    cases e with
    | read _ | reset => rfl
    | data _ => exact ⟨ws, rfl⟩
    | command op =>
      obtain ⟨i, rest, hd, hw⟩ | hd | hd := decode_command_cases op ws
      · rw [hd]
        exact hw
      · rw [hd]
        rfl
      · rw [hd]
        exact ⟨ws, rfl⟩

theorem frontOf_of_decode {ws : List HostEvent} {x : Decoded} (h : decode ws = x) : FrontOf ws x :=
  h ▸ frontOf_decode ws

/-- Settles O42: the decoder reads a command's own words as that command, and reads a command from no other words. -/
theorem decodeEncodeAgree : Obligations.DecodeEncodeAgree := fun i _ rest =>
  ⟨frontOf_of_decode, fun h => h ▸ decode_encode_append i rest⟩

/-- Settles O43: each stream is the encoding of its command, written out. -/
theorem knownWordsDecode : Obligations.KnownWordsDecode :=
  ⟨decode_encode_append (.wra 0x4048F5C3) [], decode_encode_append .rtob [], decode_encode_append .div [],
    decode_encode_append .fmul [], decode_encode_append .fpack [], decode_encode_append .fnan []⟩

/-! ### One step at each kind of event -/

theorem step_of_host_nil (h : s.host = []) : step s = .next s := by simp [step, h, decode]

theorem step_of_host_read {r : Reg} (h : s.host = .read r :: rest) : step s = hostRead r (s.withHost rest) := by
  simp [step, h, decode]

theorem step_of_host_reset (h : s.host = .reset :: rest) : step s = hostReset (s.withHost rest) := by
  simp [step, h, decode]

/-- Settles O45: at a whole command the step is that command past its words, and with an empty stream it waits. -/
theorem stepTakesNextEvent : Obligations.StepTakesNextEvent :=
  ⟨fun _ _ _ h => step_of_decode_instr h, fun _ h => step_of_host_nil h⟩

/-! ### Host reads and reset -/

theorem hostRead_res :
    hostRead .res s = if s.resWritten then .next (s.setAnswer (.res s.res)) else .fault (.unwritten .res) := by
  cases h : s.resWritten <;> simp [hostRead, hostAnswer, h]

theorem hostRead_ovf :
    hostRead .ovf s = if s.resWritten then .next (s.setAnswer (.ovf s.ovf)) else .fault (.unwritten .ovf) := by
  cases h : s.resWritten <;> simp [hostRead, hostAnswer, h]

theorem hostRead_status : hostRead .status s = .next (s.setAnswer (.status s.status.code)) := rfl

theorem hostRead_opa : hostRead .opa s = .refused (.hostCannotRead .opa) := rfl

theorem hostRead_opb : hostRead .opb s = .refused (.hostCannotRead .opb) := rfl

/-- Settles O55: the written bit that `RES` and `OVF` share decides their reads, and no other read can fault. -/
theorem hostReadsAnswer : Obligations.HostReadsAnswer := fun _ _ =>
  ⟨fun h hw => (step_of_host_read h).trans (hostRead_res.trans (if_pos hw)),
    fun h hw => (step_of_host_read h).trans (hostRead_res.trans (if_neg (Bool.eq_false_iff.1 hw))),
    fun h hw => (step_of_host_read h).trans (hostRead_ovf.trans (if_pos hw)),
    fun h hw => (step_of_host_read h).trans (hostRead_ovf.trans (if_neg (Bool.eq_false_iff.1 hw))),
    fun h => (step_of_host_read h).trans hostRead_status,
    fun h => (step_of_host_read h).trans hostRead_opa,
    fun h => (step_of_host_read h).trans hostRead_opb⟩

/-- R27, R114: the reset event gives the reset state, with the host's side as it was. -/
theorem hostReset_eq (s : State) : hostReset s = .next { State.reset with host := s.host, answer := s.answer } := rfl

/-- Settles O56: the fields of the reset state, which the event restores. -/
theorem resetClears : Obligations.ResetClears :=
  ⟨⟨rfl, rfl, rfl, rfl⟩, fun s rest h =>
    ⟨_, (step_of_host_reset h).trans (hostReset_eq (s.withHost rest)), rfl, rfl, rfl, rfl, rfl, rfl⟩⟩

end Sys2Proof.Machine
end

section
/-!
PROOFS of spec/10_state.md: what every step keeps. `STATUS` stays truthful, the content of an unwritten register stays
unseen, a command leaves what it does not write, and no command reads `OVF` or `STATUS`.
-/

namespace Sys2Proof.Machine

variable {s t : State} {i : Instr}

/-! ### The truth of `STATUS` -/

/-- R20: a command that ends in a next state leaves a truthful `STATUS`, whatever `STATUS` was before: `OK` comes with
something written, and `DIVZERO` with the zero divisor that was read. -/
theorem statusTruthful_of_exec (h : exec i s = .next t) : StatusTruthful t := by
  obtain ⟨-, d, rfl⟩ | ⟨-, d, rfl⟩ | ⟨-, -, r, v, rfl⟩ | ⟨-, ha, hb, hz, rfl⟩ := exec_next_cases h
  · simp [StatusTruthful]
  · simp [StatusTruthful]
  · simp [StatusTruthful]
  · simp [StatusTruthful, ha, hb, hz]

/-- Settles O52: nothing is written at reset. -/
theorem statusTruthfulAtReset : Obligations.StatusTruthfulAtReset :=
  ⟨fun _ => ⟨rfl, rfl, rfl⟩, nofun, nofun⟩

/-- Settles O51: a command or a reserved word leaves a truthful `STATUS` by itself, a reset clears what `NONE` says is
clear, and waiting and reading change nothing that `STATUS` speaks of. -/
theorem statusTruthfulKept : Obligations.StatusTruthfulKept := by
  intro s t hs h
  obtain ⟨-, rfl⟩ | ⟨i, rest, -, hexec⟩ | ⟨op, rest, -, rfl⟩ | ⟨r, rest, a, -, -, rfl⟩ | ⟨rest, -, rfl⟩ :=
    step_next_cases h
  · exact hs
  · exact statusTruthful_of_exec hexec
  · simp [StatusTruthful]
  · exact hs
  · exact statusTruthfulAtReset

/-! ### Unwritten contents -/

theorem AgreeOnWritten.withHost (h : AgreeOnWritten s t) (ws : List HostEvent) :
    AgreeOnWritten (s.withHost ws) (t.withHost ws) :=
  ⟨h.opaWritten, h.opbWritten, h.resWritten, h.opa, h.opb, h.res, h.ovf, h.status, rfl, h.answer⟩

theorem AgreeOnWritten.setStatus (h : AgreeOnWritten s t) (c : Status) :
    AgreeOnWritten (s.setStatus c) (t.setStatus c) :=
  ⟨h.opaWritten, h.opbWritten, h.resWritten, h.opa, h.opb, h.res, h.ovf, rfl, h.host, h.answer⟩

theorem AgreeOnWritten.setAnswer (h : AgreeOnWritten s t) (a : Answer) :
    AgreeOnWritten (s.setAnswer a) (t.setAnswer a) :=
  ⟨h.opaWritten, h.opbWritten, h.resWritten, h.opa, h.opb, h.res, h.ovf, h.status, h.host, rfl⟩

theorem AgreeOnWritten.setOpa (h : AgreeOnWritten s t) (d : Word) : AgreeOnWritten (s.setOpa d) (t.setOpa d) :=
  ⟨rfl, h.opbWritten, h.resWritten, fun _ => rfl, h.opb, h.res, h.ovf, h.status, h.host, h.answer⟩

theorem AgreeOnWritten.setOpb (h : AgreeOnWritten s t) (d : Word) : AgreeOnWritten (s.setOpb d) (t.setOpb d) :=
  ⟨h.opaWritten, rfl, h.resWritten, h.opa, fun _ => rfl, h.res, h.ovf, h.status, h.host, h.answer⟩

theorem AgreeOnWritten.setResult (h : AgreeOnWritten s t) (r : Word) (v : Bool) :
    AgreeOnWritten (s.setResult r v) (t.setResult r v) :=
  ⟨h.opaWritten, h.opbWritten, rfl, h.opa, h.opb, fun _ => rfl, fun _ => rfl, h.status, h.host, h.answer⟩

/-- R19: a read under a written bit that both sides share faults on both, or goes on with both. -/
theorem checkedRead_agree {w w' : Bool} {f : Fault} {x y : Result} (hw : w = w')
    (h : w = true → OutcomesAgree x y) :
    OutcomesAgree (if w then x else .fault f) (if w' then y else .fault f) := by
  subst hw
  cases w with
  | false => exact rfl
  | true => exact h rfl

section Agreement

variable (h : AgreeOnWritten s t)
include h

theorem writeOpa_agree (d : Word) : OutcomesAgree (writeOpa d s) (writeOpa d t) := (h.setOpa d).setStatus .ok

theorem writeOpb_agree (d : Word) : OutcomesAgree (writeOpb d s) (writeOpb d t) := (h.setOpb d).setStatus .ok

theorem complete_agree (r : Word) (v : Bool) : OutcomesAgree (complete r v s) (complete r v t) :=
  (h.setResult r v).setStatus .ok

theorem raise_agree (c : Cause) : OutcomesAgree (raise c s) (raise c t) := h.setStatus c.status

theorem readOpa_agree {k k' : Word → Result} (hk : ∀ d, OutcomesAgree (k d) (k' d)) :
    OutcomesAgree (readOpa s k) (readOpa t k') := checkedRead_agree h.opaWritten fun hw => h.opa hw ▸ hk _

theorem readOpb_agree {k k' : Word → Result} (hk : ∀ d, OutcomesAgree (k d) (k' d)) :
    OutcomesAgree (readOpb s k) (readOpb t k') := checkedRead_agree h.opbWritten fun hw => h.opb hw ▸ hk _

theorem readRes_agree {k k' : Word → Result} (hk : ∀ d, OutcomesAgree (k d) (k' d)) :
    OutcomesAgree (readRes s k) (readRes t k') := checkedRead_agree h.resWritten fun hw => h.res hw ▸ hk _

theorem readBoth_agree {k k' : Word → Word → Result} (hk : ∀ a b, OutcomesAgree (k a b) (k' a b)) :
    OutcomesAgree (readBoth s k) (readBoth t k') :=
  readOpa_agree h fun a => readOpb_agree h (hk a)

/-- R19: a command sees the contents of written registers alone. -/
theorem exec_agree (i : Instr) : OutcomesAgree (exec i s) (exec i t) := by
  cases i with
  | wra d => exact writeOpa_agree h d
  | wrb d => exact writeOpb_agree h d
  | rtoa => exact readRes_agree h fun r => writeOpa_agree h r
  | rtob => exact readRes_agree h fun r => writeOpb_agree h r
  | div =>
    rw [exec_div, exec_div]
    refine readBoth_agree h fun a b => ?_
    by_cases hz : b = 0
    · rw [if_pos hz, if_pos hz]
      exact raise_agree h .divzero
    · rw [if_neg hz, if_neg hz]
      exact complete_agree h _ _
  | add | sub | mul | fadd | fsub | fmul | fdiv | feq | fpack =>
    simp only [exec_add, exec_sub, exec_mul, exec_fadd, exec_fsub, exec_fmul, exec_fdiv, exec_feq, exec_fpack]
    exact readBoth_agree h fun a b => complete_agree h _ _
  | comp | decomp | fiszero | fisinf | fisnan | fsgn | fexp | ffrac =>
    simp only [exec_comp, exec_decomp, exec_fiszero, exec_fisinf, exec_fisnan, exec_fsgn, exec_fexp, exec_ffrac]
    exact readOpa_agree h fun a => complete_agree h _ _
  | fmax | fmin | finf | fnan => exact complete_agree h _ _

/-- R28, R19: a host read faults in both states, or answers both the same. -/
theorem hostRead_agree (r : Reg) : OutcomesAgree (hostRead r s) (hostRead r t) := by
  cases r with
  | opa | opb => rfl
  | status =>
    rw [hostRead_status, hostRead_status, h.status]
    exact h.setAnswer _
  | res =>
    rw [hostRead_res, hostRead_res]
    exact checkedRead_agree h.resWritten fun hw => h.res hw ▸ h.setAnswer _
  | ovf =>
    rw [hostRead_ovf, hostRead_ovf]
    exact checkedRead_agree h.resWritten fun hw => h.ovf hw ▸ h.setAnswer _

/-- A reset forgets every register, so the states it gives agree. -/
theorem hostReset_agree : OutcomesAgree (hostReset s) (hostReset t) :=
  ⟨rfl, rfl, rfl, nofun, nofun, nofun, nofun, rfl, h.host, h.answer⟩

end Agreement

/-- Settles O53: agreeing states present the same stream, so they take the same event, and every kind of event reads
registers through their written bits. -/
theorem unwrittenContentsUnseen : Obligations.UnwrittenContentsUnseen := by
  intro s t h
  unfold step
  rw [← h.host]
  cases decode s.host with
  | idle => exact h
  | instr i rest => exact exec_agree (h.withHost rest) i
  | reserved op rest => exact raise_agree (h.withHost rest) .illegal
  | read r rest => exact hostRead_agree (h.withHost rest) r
  | reset rest => exact hostReset_agree (h.withHost rest)
  | partialCommand op => rfl
  | strayData d => rfl

/-! ### Frames -/

/-- Settles O49: each way a command can end in a next state is an update of the registers the opcode map lists and of
`STATUS`. -/
theorem commandFrame : Obligations.CommandFrame := by
  intro i s t h
  obtain ⟨hw, d, rfl⟩ | ⟨hw, d, rfl⟩ | ⟨hw, -, r, v, rfl⟩ | ⟨-, -, -, -, rfl⟩ := exec_next_cases h
  · simp [hw]
  · simp [hw]
  · simp [hw]
  · simp

/-! ### Readiness -/

theorem ready_iff_firstUnwritten : Ready i s ↔ s.firstUnwritten (reads i) = none := firstUnwritten_none.symm

/-- R21: all that a completing command writes is written after it. -/
theorem written_of_exec_ok (h : exec i s = .next t) (hok : t.status = .ok) : ∀ r ∈ writes i, t.written r = true := by
  obtain ⟨hw, d, rfl⟩ | ⟨hw, d, rfl⟩ | ⟨hw, -, r, v, rfl⟩ | ⟨-, -, -, -, rfl⟩ := exec_next_cases h
  · simp [hw]
  · simp [hw]
  · simp [hw]
  · simp at hok

/-- Settles O47: a command that has all it reads ends in a next state, and only `DIV` with a zero divisor ends there
without completing. -/
theorem readyCommandsComplete : Obligations.ReadyCommandsComplete := by
  intro i s hready hz
  obtain ⟨t, ht⟩ := exec_of_ready (ready_iff_firstUnwritten.1 hready)
  have hok : t.status = .ok := (exec_next_ok_iff ht).2 fun ⟨hi, h₀⟩ => hz hi h₀
  exact ⟨t, ht, hok, written_of_exec_ok ht hok⟩

/-! ### The flag and the status are not read -/

/-- R18: an outcome's `OVF` is none of a checked read's business. -/
theorem forgetOvf_readOpa (s : State) (k : Word → Result) :
    forgetOvf (readOpa s k) = readOpa s fun a => forgetOvf (k a) := by
  cases h : s.opaWritten <;> simp [readOpa, h, forgetOvf]

theorem forgetOvf_readOpb (s : State) (k : Word → Result) :
    forgetOvf (readOpb s k) = readOpb s fun b => forgetOvf (k b) := by
  cases h : s.opbWritten <;> simp [readOpb, h, forgetOvf]

theorem forgetOvf_readRes (s : State) (k : Word → Result) :
    forgetOvf (readRes s k) = readRes s fun r => forgetOvf (k r) := by
  cases h : s.resWritten <;> simp [readRes, h, forgetOvf]

theorem forgetOvf_readBoth (s : State) (k : Word → Word → Result) :
    forgetOvf (readBoth s k) = readBoth s fun a b => forgetOvf (k a b) := by
  simp only [readBoth, forgetOvf_readOpa, forgetOvf_readOpb]

/-- R18: past its checked reads a command only updates the state, and an update of two states that differ in `OVF` gives
states that differ in `OVF` at most. -/
theorem forgetOvf_exec (i : Instr) (s : State) (v : Bool) :
    forgetOvf (exec i { s with ovf := v }) = forgetOvf (exec i s) := by
  cases i with
  | wra d | wrb d => rfl
  | rtoa | rtob =>
    simp only [exec_rtoa, exec_rtob, forgetOvf_readRes]
    rfl
  | div =>
    simp only [exec_div, forgetOvf_readBoth, apply_ite forgetOvf]
    rfl
  | add | sub | mul | fadd | fsub | fmul | fdiv | feq | fpack =>
    simp only [exec_add, exec_sub, exec_mul, exec_fadd, exec_fsub, exec_fmul, exec_fdiv, exec_feq, exec_fpack,
      forgetOvf_readBoth]
    rfl
  | comp | decomp | fiszero | fisinf | fisnan | fsgn | fexp | ffrac =>
    simp only [exec_comp, exec_decomp, exec_fiszero, exec_fisinf, exec_fisnan, exec_fsgn, exec_fexp, exec_ffrac,
      forgetOvf_readOpa]
    rfl
  | fmax | fmin | finf | fnan => rfl

/-- R20: every way a command can end in a next state overwrites `STATUS`, and no fault depends on it. -/
theorem exec_setStatus (i : Instr) (s : State) (c : Status) : exec i (s.setStatus c) = exec i s := by
  cases i <;> rfl

/-- Settles O54: no checked read looks at `OVF` or `STATUS`, and each command ends by updating the state. -/
theorem flagAndStatusUnread : Obligations.FlagAndStatusUnread := fun i s v c =>
  ⟨forgetOvf_exec i s v, exec_setStatus i s c⟩

end Sys2Proof.Machine
end

section
/-!
PROOFS of spec/70_reset_and_hazards.md about whole runs: every event shortens the host's stream, so a run ends; and a
program that writes what it reads first never stops before its end.
-/

namespace Sys2Proof.Machine

variable {s t : State} {i : Instr}

/-! ### A step takes something off the stream -/

theorem encode_length_pos (i : Instr) : 0 < (encode i).length := Nat.succ_pos _

theorem exec_host (h : exec i s = .next t) : t.host = s.host := by
  obtain ⟨-, -, -, -, hhost, -⟩ := commandFrame i s t h
  exact hhost

/-- R33, R117: a step that goes on has taken its event, whatever kind it was. -/
theorem host_length_lt_of_step (h : step s = .next t) (hne : s.host ≠ []) : t.host.length < s.host.length := by
  obtain ⟨hd, -⟩ | ⟨i, rest, hd, hexec⟩ | ⟨op, rest, hd, rfl⟩ | ⟨r, rest, a, hd, -, rfl⟩ | ⟨rest, hd, rfl⟩ :=
    step_next_cases h
  · exact absurd (frontOf_of_decode hd) hne
  · have hfront : s.host = encode i ++ rest := frontOf_of_decode hd
    have := encode_length_pos i
    rw [exec_host hexec, hfront, State.host_withHost, List.length_append]
    omega
  · have hfront : s.host = .command op :: rest := frontOf_of_decode hd
    simp [hfront]
  · have hfront : s.host = .read r :: rest := frontOf_of_decode hd
    simp [hfront]
  · have hfront : s.host = .reset :: rest := frontOf_of_decode hd
    simp [hfront]

/-! ### How the observation of a run ends -/

variable {k : Nat}

theorem observeSteps_ended_of_nil (h : s.host = []) : (observeSteps k s).ended = .done := by
  unfold observeSteps
  simp [h]

theorem observeSteps_ended_of_next (hne : s.host ≠ []) (h : step s = .next t) :
    (observeSteps (k + 1) s).ended = (observeSteps k t).ended := by
  obtain ⟨e, es, hhost⟩ := List.exists_cons_of_ne_nil hne
  rw [observeSteps]
  simp [hhost, h]

theorem observeSteps_ended_of_fault {f : Fault} (hne : s.host ≠ []) (h : step s = .fault f) :
    (observeSteps (k + 1) s).ended = .fault f := by
  obtain ⟨e, es, hhost⟩ := List.exists_cons_of_ne_nil hne
  rw [observeSteps]
  simp [hhost, h]

theorem observeSteps_ended_of_refused {r : Refusal} (hne : s.host ≠ []) (h : step s = .refused r) :
    (observeSteps (k + 1) s).ended = .refused r := by
  obtain ⟨e, es, hhost⟩ := List.exists_cons_of_ne_nil hne
  rw [observeSteps]
  simp [hhost, h]

/-- R119: as many steps as the stream has events are enough to end a run. -/
theorem observeSteps_ended_ne_running (hk : s.host.length ≤ k) : (observeSteps k s).ended ≠ .running := by
  induction k generalizing s with
  | zero =>
    rw [observeSteps_ended_of_nil (List.eq_nil_of_length_eq_zero (Nat.le_zero.1 hk))]
    nofun
  | succ k ih =>
    by_cases hne : s.host = []
    · rw [observeSteps_ended_of_nil hne]
      nofun
    · cases h : step s with
      | next t =>
        have := host_length_lt_of_step h hne
        rw [observeSteps_ended_of_next hne h]
        exact ih (by omega)
      | fault f =>
        rw [observeSteps_ended_of_fault hne h]
        nofun
      | refused r =>
        rw [observeSteps_ended_of_refused hne h]
        nofun

/-- Settles O57: every step that goes on shortens the stream, and every other step ends the run. -/
theorem runsEnd : Obligations.RunsEnd := fun _ => observeSteps_ended_ne_running (Nat.le_refl _)

/-! ### The boot requirements -/

/-- No command clears a written bit. -/
theorem written_of_exec {r : Reg} (h : exec i s = .next t) (hr : s.written r = true) : t.written r = true := by
  obtain ⟨-, d, rfl⟩ | ⟨-, d, rfl⟩ | ⟨-, -, w, v, rfl⟩ | ⟨-, -, -, -, rfl⟩ := exec_next_cases h <;> simp [hr]

/-- R116: what the static check adds after a command is what the opcode map lists, and nothing after `DIV`. -/
theorem Known.written_after {k : Known} {r : Reg} (h : (k.after i).written r = true) :
    k.written r = true ∨ (i ≠ .div ∧ r ∈ writes i) := by
  cases i with
  | div => exact .inl h
  | _ => cases r <;> simp_all [Known.after, Known.written, writes]

theorem written_of_known_after {k : Known} (h : exec i s = .next t) (hk : ∀ r, k.written r = true → s.written r = true) :
    ∀ r, (k.after i).written r = true → t.written r = true := by
  intro r hr
  obtain hr | ⟨hi, hr⟩ := Known.written_after hr
  · exact written_of_exec h (hk r hr)
  · exact written_of_exec_ok h ((exec_next_ok_iff h).2 fun hz => hi hz.1) r hr

theorem present_cons (i : Instr) (is : List Instr) : present (i :: is) = encode i ++ present is := rfl

theorem ready_of_bootOk {is : List Instr} {k : Known} (h : bootOk k (i :: is) = true)
    (hk : ∀ r, k.written r = true → s.written r = true) : Ready i s ∧ bootOk (k.after i) is = true := by
  simp only [bootOk, Bool.and_eq_true, List.all_eq_true] at h
  exact ⟨fun r hr => hk r (h.1 r hr), h.2⟩

/-- R116: the next command of such a program has all it reads, and what the check knows after it is written after it. -/
theorem exists_step_of_bootReady (h : BootReady s) : ∃ t, step s = .next t ∧ BootReady t := by
  obtain ⟨is, k, hhost, hk, hboot⟩ := h
  cases is with
  | nil => exact ⟨s, step_of_host_nil hhost, [], k, hhost, hk, hboot⟩
  | cons i is =>
    obtain ⟨hready, hboot'⟩ := ready_of_bootOk hboot hk
    rw [step_of_host_eq_encode (hhost.trans (present_cons i is))]
    have hk' : ∀ r, k.written r = true → (s.withHost (present is)).written r = true := by simpa using hk
    have hready' : Ready i (s.withHost (present is)) := fun r hr => by simpa using hready r hr
    obtain ⟨t, ht⟩ := exec_of_ready (ready_iff_firstUnwritten.1 hready')
    exact ⟨t, ht, is, k.after i, exec_host ht, written_of_known_after ht hk', hboot'⟩

theorem bootReady_reset : BootReady State.reset :=
  ⟨[], ⟨false, false, false⟩, rfl, fun r hr => by cases r <;> simp_all [Known.written, State.written], rfl⟩

/-- Settles O60: a step of such a program is its next command, or waits when the program is at its end. -/
theorem bootReadyKept : Obligations.BootReadyKept := by
  refine ⟨bootReady_reset, fun s hs => ?_⟩
  obtain ⟨t, ht, hboot⟩ := exists_step_of_bootReady hs
  refine ⟨t, ht, hboot, fun hnil => ?_, host_length_lt_of_step ht⟩
  exact (Host.Outcome.next.inj ((step_of_host_nil hnil).symm.trans ht)).symm

theorem observeSteps_done_of_bootReady (hs : BootReady s) (hk : s.host.length ≤ k) :
    (observeSteps k s).ended = .done := by
  induction k generalizing s with
  | zero => exact observeSteps_ended_of_nil (List.eq_nil_of_length_eq_zero (Nat.le_zero.1 hk))
  | succ k ih =>
    by_cases hne : s.host = []
    · exact observeSteps_ended_of_nil hne
    · obtain ⟨t, ht, hboot⟩ := exists_step_of_bootReady hs
      have := host_length_lt_of_step ht hne
      rw [observeSteps_ended_of_next hne ht]
      exact ih hboot (by omega)

/-- Settles O58: every step of such a run goes on, so the run ends where the program does. -/
theorem bootRequirementsSuffice : Obligations.BootRequirementsSuffice := fun is k _ hhost hk hboot =>
  observeSteps_done_of_bootReady ⟨is, k, hhost, hk, hboot⟩ (Nat.le_refl _)

end Sys2Proof.Machine
end

section
/-!
PROOFS of spec/42_integer.md section 1 as the rules state it: each circuit of the engine by the unsigned values of its
operands, at every width.
-/

namespace Sys2Proof.Machine

variable {n : Nat}

theorem mul_eq_ofNat (a b : BitVec n) : a * b = BitVec.ofNat n (a.toNat * b.toNat) :=
  BitVec.eq_of_toNat_eq (by rw [BitVec.toNat_mul, BitVec.toNat_ofNat])

theorem neg_eq_ofNat (a : BitVec n) : -a = BitVec.ofNat n (2 ^ n - a.toNat) :=
  BitVec.eq_of_toNat_eq (by rw [BitVec.toNat_neg, BitVec.toNat_ofNat])

/-- Settles O3: the passes keep the sum, with the carries they shift out counted at `2^n`. -/
theorem rippleAdderIsExact : Obligations.RippleAdderIsExact := fun _ a b =>
  Prod.ext ((adder_fst a b).trans (BitVec.add_def a b)) (adder_snd a b)

/-- Settles O4: the complement and the decomplement are both the negation, which is its own inverse. -/
theorem complementAndInverse : Obligations.ComplementAndInverse := fun _ a =>
  ⟨(compl_fst a).trans (neg_eq_ofNat a), fun hn => by rw [compl_snd hn, decide_eq_true_iff],
    (decompl_eq_neg a).trans (compl_fst a).symm, by rw [decompl_eq_neg, compl_fst, BitVec.neg_neg]⟩

/-- Settles O5: the subtractor adds the complement, which carries where `a` reaches a nonzero `b`. -/
theorem subtractorLaw : Obligations.SubtractorLaw := fun _ a b =>
  ⟨subr_fst a b, by rw [subr_snd, decide_eq_true_iff]⟩

/-- Settles O6: the accumulator after all bits of `b` is the product. -/
theorem shiftAddMultiplies : Obligations.ShiftAddMultiplies := fun _ a b =>
  (mulr_eq_mul a b).trans (mul_eq_ofNat a b)

/-- Settles O7: the running product stays below `a` by less than the divisor times the bits still to come. -/
theorem restoringDivides : Obligations.RestoringDivides := fun _ a _ hb => toNat_divr a hb

end Sys2Proof.Machine
end

section
/-!
PROOFS of spec/44_float_arith.md about the ordinary operands of `FADD`, `FMUL` and `FDIV`: alignment, how far each result
is from the exact one, what is handed to `PACK`, the flag, and the order of the operands.
-/

namespace Sys2Proof.Machine

variable {a b x : Word} {v w k e ma mb : Nat} {u : Unpacked}

/-! ### The rounding shift as the least cover -/

/-- R93: the shift gives no more units than any number of units that covers its argument. -/
theorem shrr_le_of_le_mul (h : v ≤ w * 2 ^ k) : shrr v k ≤ w := by
  have hcover := (shrr_mul_bounds v k).2
  have hlt : shrr v k * 2 ^ k < (w + 1) * 2 ^ k := by
    rw [Nat.succ_mul]
    omega
  exact Nat.le_of_lt_succ (Nat.lt_of_mul_lt_mul_right hlt)

theorem shrr_le_self (v k : Nat) : shrr v k ≤ v :=
  shrr_le_of_le_mul (Nat.le_mul_of_pos_right v (Nat.two_pow_pos k))

/-- R95: a 24-bit mantissa that is shifted at all keeps at most 23 bits, or is exactly `2^23`. -/
theorem shrr_le_of_shifted (hv : v < 2 ^ 24) (hk : 0 < k) : shrr v k ≤ 2 ^ 23 :=
  shrr_le_of_le_mul <|
    calc v ≤ 2 ^ 23 * 2 ^ 1 := hv.le
      _ ≤ 2 ^ 23 * 2 ^ k := Nat.mul_le_mul_left _ (Nat.pow_le_pow_right (by decide) hk)

/-- R95: a 24-bit mantissa shifted past its width is 1, and never 0. -/
theorem shrr_of_shifted_out (hpos : 0 < v) (hv : v < 2 ^ 24) (hk : 24 ≤ k) : shrr v k = 1 :=
  shrr_of_lt hpos (hv.trans_le (Nat.pow_le_pow_right (by decide) hk))

/-- R95's example: `1.0` and a word 100 binary places below it. -/
theorem faddFn_one_tiny : faddFn 0x3F800000 0x0D800000 = (0x3F800001, false) := by decide

/-- Settles O26: alignment is the rounding shift of both mantissas to the larger exponent, and the shift is at most its
argument, half of it past one place, and 1 past its width. -/
theorem alignmentBounds : Obligations.AlignmentBounds := by
  refine ⟨fun ea ma eb mb hma hma' hmb hmb' => ?_, faddFn_one_tiny⟩
  rw [align_eq_max]
  exact ⟨rfl, (shrr_le_self ..).trans_lt hma', (shrr_le_self ..).trans_lt hmb',
    fun h => shrr_le_of_shifted hmb' (by omega), fun h => shrr_le_of_shifted hma' (by omega),
    fun h => shrr_of_shifted_out (by omega) hmb' (by omega), fun h => shrr_of_shifted_out (by omega) hma' (by omega)⟩

/-! ### How far a result is from the exact one -/

/-- R95: with the larger exponent on the left, only the right mantissa is shifted. -/
theorem align_of_eq_add {ea eb d : Nat} (h : ea = eb + d) : align ea ma eb mb = (ea, ma, shrr mb d) := by
  have hle : eb ≤ ea := by omega
  have hd : ea - eb = d := by omega
  simp only [align, if_pos hle, hd]

/-- R95: a sum with an aligned mantissa is rounded up by less than one unit. -/
theorem add_shrr_bounds (m v d : Nat) :
    m * 2 ^ d + v ≤ (m + shrr v d) * 2 ^ d ∧ (m + shrr v d) * 2 ^ d < m * 2 ^ d + v + 2 ^ d := by
  have := shrr_mul_bounds v d
  rw [Nat.add_mul]
  omega

/-- R97: the shift after a carry rounds such a sum up by at most one unit more. -/
theorem shrr_add_shrr_bounds (m v d : Nat) :
    m * 2 ^ d + v ≤ shrr (m + shrr v d) 1 * 2 ^ (d + 1) ∧
      shrr (m + shrr v d) 1 * 2 ^ (d + 1) < m * 2 ^ d + v + 2 ^ (d + 1) := by
  obtain ⟨hlow, hhigh⟩ := add_shrr_bounds m v d
  obtain ⟨hcover, hcover'⟩ := shrr_mul_bounds (m + shrr v d) 1
  have hlow' := Nat.mul_le_mul_right (2 ^ d) hcover
  have hhigh' := Nat.mul_le_mul_right (2 ^ d) (Nat.le_of_lt_succ hcover')
  have hunits : shrr (m + shrr v d) 1 * 2 ^ (d + 1) = shrr (m + shrr v d) 1 * 2 ^ 1 * 2 ^ d := by ring
  rw [hunits, pow_succ 2 d]
  rw [Nat.add_mul _ 1] at hhigh'
  omega

/-- Settles O35: alignment rounds the smaller operand up by less than a unit, and the shift after a carry rounds the sum
up by at most one more. -/
theorem faddSameSignBound : Obligations.FaddSameSignBound := by
  intro a b u d _ _ hs hd hu
  have haligned := align_of_eq_add (ma := mantOf a) (mb := mantOf b) hd
  rcases lt_or_ge (mantOf a + shrr (mantOf b) d) (2 ^ 24) with hsum | hsum
  · rw [addOrdinary_of_sum_lt haligned hs hsum, Option.some.injEq] at hu
    subst hu
    obtain ⟨hlow, hhigh⟩ := add_shrr_bounds (mantOf a) (mantOf b) d
    exact ⟨0, Nat.zero_le 1, by simp, hlow, hhigh.trans_le (by rw [pow_succ]; omega)⟩
  · rw [addOrdinary_of_le_sum haligned hs hsum, Option.some.injEq] at hu
    subst hu
    exact ⟨1, Nat.le_refl 1, by simp, shrr_add_shrr_bounds (mantOf a) (mantOf b) d⟩

/-- Settles O36: each branch of `FMUL` is a rounding shift of the exact product, by 23 places or by 24. -/
theorem fmulRoundsUp : Obligations.FmulRoundsUp := by
  intro a b _ _
  rcases lt_or_ge (mantOf a * mantOf b) (2 ^ 47) with hp | hp
  · have hcover := shrr_mul_bounds (mantOf a * mantOf b) 23
    by_cases hcarry : shrr (mantOf a * mantOf b) 23 = 2 ^ 24
    · rw [mulOrdinary_of_carry hp hcarry]
      rw [hcarry] at hcover
      exact ⟨1, Nat.le_refl 1, by simp, by dsimp only; omega, by dsimp only; omega⟩
    · rw [mulOrdinary_of_lt hp hcarry]
      exact ⟨0, Nat.zero_le 1, by simp, hcover⟩
  · rw [mulOrdinary_of_le hp]
    exact ⟨1, Nat.le_refl 1, by simp, shrr_mul_bounds (mantOf a * mantOf b) 24⟩

theorem mantOf_pos (x : Word) : 0 < mantOf x := (Nat.two_pow_pos 23).trans_le (mantOf_bounds x).1

/-- R100: the floor of a quotient by a mantissa, and one unit more, on the two sides of the exact quotient. -/
theorem div_mul_floor_bounds (m : Nat) (b : Word) : m / mantOf b * mantOf b ≤ m ∧ m < (m / mantOf b + 1) * mantOf b :=
  ⟨Nat.div_mul_le_self _ _, (Nat.div_lt_iff_lt_mul (mantOf_pos b)).1 (Nat.lt_succ_self _)⟩

/-- Settles O37: each branch of `FDIV` is the floor of an exact quotient, of the dividend shifted by 23 places or by 24. -/
theorem fdivTruncates : Obligations.FdivTruncates := by
  intro a b _ _
  rcases lt_or_ge (mantOf a) (mantOf b) with h | h
  · rw [divOrdinary_of_lt h]
    exact ⟨1, Nat.le_refl 1, by push_cast; ring, div_mul_floor_bounds _ b⟩
  · rw [divOrdinary_of_le h]
    exact ⟨0, Nat.zero_le 1, by simp, div_mul_floor_bounds _ b⟩

/-! ### What is handed to `PACK` -/

/-- R95: one of two aligned mantissas keeps its leading 1 at bit 23, and neither grows. -/
theorem aligned_mantOf_bounds (haligned : align (expOf a).toNat (mantOf a) (expOf b).toNat (mantOf b) = (e, ma, mb)) :
    ma < 2 ^ 24 ∧ mb < 2 ^ 24 ∧ (2 ^ 23 ≤ ma ∨ 2 ^ 23 ≤ mb) := by
  obtain ⟨ha, ha'⟩ := mantOf_bounds a
  obtain ⟨hb, hb'⟩ := mantOf_bounds b
  rw [align_eq_max] at haligned
  obtain ⟨-, rfl, rfl⟩ := haligned
  refine ⟨(shrr_le_self ..).trans_lt ha', (shrr_le_self ..).trans_lt hb', ?_⟩
  rcases le_total (expOf a).toNat (expOf b).toNat with h | h
  · exact .inr (by simpa [h] using hb)
  · exact .inl (by simpa [h] using ha)

theorem addOrdinary_mant_bounds (hu : addOrdinary a b = some u) : 2 ^ 23 ≤ u.mant ∧ u.mant < 2 ^ 24 := by
  obtain ⟨⟨e, ma, mb⟩, haligned⟩ : ∃ p, align (expOf a).toNat (mantOf a) (expOf b).toNat (mantOf b) = p := ⟨_, rfl⟩
  obtain ⟨hma, hmb, hlead⟩ := aligned_mantOf_bounds haligned
  by_cases hs : sgnOf a = sgnOf b
  · rcases lt_or_ge (ma + mb) (2 ^ 24) with hsum | hsum
    · rw [addOrdinary_of_sum_lt haligned hs hsum, Option.some.injEq] at hu
      subst hu
      exact ⟨by dsimp only; omega, hsum⟩
    · rw [addOrdinary_of_le_sum haligned hs hsum, Option.some.injEq] at hu
      subst hu
      have hcover := shrr_mul_bounds (ma + mb) 1
      dsimp only
      omega
  · rcases lt_trichotomy ma mb with h | h | h
    · rw [addOrdinary_of_left_lt haligned hs h, Option.some.injEq] at hu
      subst hu
      exact norm_mant_bounds e (by omega) (by omega)
    · rw [addOrdinary_of_cancel haligned hs h] at hu
      simp at hu
    · rw [addOrdinary_of_right_lt haligned hs h, Option.some.injEq] at hu
      subst hu
      exact norm_mant_bounds e (by omega) (by omega)

/-- R99: the product of two 24-bit mantissas has 47 or 48 bits. -/
theorem two_pow_le_mantOf_mul (a b : Word) : 2 ^ 23 * 2 ^ 23 ≤ mantOf a * mantOf b :=
  Nat.mul_le_mul (mantOf_bounds a).1 (mantOf_bounds b).1

theorem mulOrdinary_mant_bounds (a b : Word) : 2 ^ 23 ≤ (mulOrdinary a b).mant ∧ (mulOrdinary a b).mant < 2 ^ 24 := by
  have hlow := two_pow_le_mantOf_mul a b
  rcases lt_or_ge (mantOf a * mantOf b) (2 ^ 47) with hp | hp
  · by_cases hcarry : shrr (mantOf a * mantOf b) 23 = 2 ^ 24
    · rw [mulOrdinary_of_carry hp hcarry]
      exact ⟨Nat.le_refl _, Nat.pow_lt_pow_right Nat.one_lt_two (Nat.lt_succ_self 23)⟩
    · rw [mulOrdinary_of_lt hp hcarry]
      have hcover := shrr_mul_bounds (mantOf a * mantOf b) 23
      dsimp only
      omega
  · rw [mulOrdinary_of_le hp]
    have hcover := shrr_mul_bounds (mantOf a * mantOf b) 24
    exact ⟨by dsimp only; omega, shrr_mantOf_mul_lt a b⟩

/-- R100: two mantissas differ by less than a factor of 2, so either quotient has its leading 1 at bit 23. -/
theorem divOrdinary_mant_bounds (a b : Word) : 2 ^ 23 ≤ (divOrdinary a b).mant ∧ (divOrdinary a b).mant < 2 ^ 24 := by
  have ha := mantOf_bounds a
  have hb := mantOf_bounds b
  rcases lt_or_ge (mantOf a) (mantOf b) with h | h
  · rw [divOrdinary_of_lt h]
    exact ⟨(Nat.le_div_iff_mul_le (mantOf_pos b)).2 (by omega), (Nat.div_lt_iff_lt_mul (mantOf_pos b)).2 (by omega)⟩
  · rw [divOrdinary_of_le h]
    exact ⟨(Nat.le_div_iff_mul_le (mantOf_pos b)).2 (by omega), (Nat.div_lt_iff_lt_mul (mantOf_pos b)).2 (by omega)⟩

/-- Settles O38: a sum keeps a leading 1 or is shifted for its carry, a difference is normalized, and products and
quotients of two 24-bit mantissas are shifted to 24 bits. -/
theorem packInputsNormalized : Obligations.PackInputsNormalized := fun a b _ _ =>
  ⟨fun _ => addOrdinary_mant_bounds, mulOrdinary_mant_bounds a b, divOrdinary_mant_bounds a b⟩

/-! ### The flag -/

theorem isInf_signedInf (sg : Bool) : isInf (signedInf sg) = true := by cases sg <;> rfl

theorem isInf_signedZero (sg : Bool) : isInf (signedZero sg) = false := by cases sg <;> rfl

/-- R94: packing reports an overflow exactly when it gives an infinity: in range the packed exponent is below 255. -/
theorem pack_snd_iff (u : Unpacked) : (pack u).2 = true ↔ isInf (pack u).1 = true := by
  rcases lt_or_ge u.exp 0 with hlo | hlo
  · simp [pack_of_underflow hlo, isInf_signedZero]
  · rcases lt_or_ge u.exp 255 with hhi | hhi
    · have hexp := expOf_pack hlo hhi
      have hflag : (pack u).2 = false := by rw [pack_of_inRange hlo hhi]
      rw [hflag, isInf_iff]
      exact iff_of_false nofun (by omega)
    · simp [pack_of_overflow hhi, isInf_signedInf]

/-- R97: every branch that tests a class returns no flag, so a flag comes from the last one, where no test has held and
both operands are ordinary. R99 and R100 have the same shape. -/
theorem isOrd_of_faddFn_flag (h : (faddFn a b).2 = true) : isOrd a = true ∧ isOrd b = true := by
  simp only [faddFn] at h
  split_ifs at h <;> simp_all [isOrd, noFlag]

theorem isOrd_of_fmulFn_flag (h : (fmulFn a b).2 = true) : isOrd a = true ∧ isOrd b = true := by
  simp only [fmulFn] at h
  split_ifs at h <;> simp_all [isOrd, noFlag]

theorem isOrd_of_fdivFn_flag (h : (fdivFn a b).2 = true) : isOrd a = true ∧ isOrd b = true := by
  simp only [fdivFn] at h
  split_ifs at h <;> simp_all [isOrd, noFlag]

/-- R18: a function whose flag is raised for ordinary operands alone, and for these with an infinity, sets it exactly
then. -/
theorem flag_iff_of_isOrd {r : Word × Bool} (hord : r.2 = true → isOrd a = true ∧ isOrd b = true)
    (hinf : isOrd a = true → isOrd b = true → (r.2 = true ↔ isInf r.1 = true)) :
    r.2 = true ↔ isOrd a = true ∧ isOrd b = true ∧ isInf r.1 = true :=
  ⟨fun h => ⟨(hord h).1, (hord h).2, (hinf (hord h).1 (hord h).2).1 h⟩, fun ⟨ha, hb, hi⟩ => (hinf ha hb).2 hi⟩

theorem faddFn_flag_iff (a b : Word) :
    (faddFn a b).2 = true ↔ isOrd a = true ∧ isOrd b = true ∧ isInf (faddFn a b).1 = true := by
  refine flag_iff_of_isOrd isOrd_of_faddFn_flag fun ha hb => ?_
  cases hu : addOrdinary a b with
  | none =>
    rw [faddFn_of_addOrdinary_none ha hb hu]
    decide
  | some u =>
    rw [faddFn_of_addOrdinary_some ha hb hu]
    exact pack_snd_iff u

/-- Settles O39: every branch of the four functions but `PACK` returns no flag, and `PACK` is reached by ordinary operands
alone. -/
theorem floatOverflowFlag : Obligations.FloatOverflowFlag := by
  intro f hf a b
  simp only [List.mem_cons, List.not_mem_nil, or_false] at hf
  obtain rfl | rfl | rfl | rfl := hf
  · exact faddFn_flag_iff a b
  · exact isOrd_flipSign b ▸ faddFn_flag_iff a (flipSign b)
  · exact flag_iff_of_isOrd isOrd_of_fmulFn_flag fun ha hb => fmulFn_of_isOrd ha hb ▸ pack_snd_iff _
  · exact flag_iff_of_isOrd isOrd_of_fdivFn_flag fun ha hb => fdivFn_of_isOrd ha hb ▸ pack_snd_iff _

/-! ### The order of the operands -/

/-- R76: a word that is neither a NaN nor an infinity is a zero or ordinary. -/
theorem class_cases (x : Word) : isNan x = true ∨ isInf x = true ∨ isZero x = true ∨ isOrd x = true := by
  cases hn : isNan x <;> cases hi : isInf x <;> cases hz : isZero x <;> simp [isOrd, hn, hi, hz]

/-- R23: an infinity is its sign. -/
theorem eq_of_isInf (ha : isInf a = true) (hb : isInf b = true) (hs : sgnOf a = sgnOf b) : a = b := by
  rw [isInf_iff] at ha hb
  exact word_ext_fields hs (BitVec.eq_of_toNat_eq (ha.1.trans hb.1.symm)) (BitVec.eq_of_toNat_eq (ha.2.trans hb.2.symm))

theorem align_swap (haligned : align (expOf a).toNat (mantOf a) (expOf b).toNat (mantOf b) = (e, ma, mb)) :
    align (expOf b).toNat (mantOf b) (expOf a).toNat (mantOf a) = (e, mb, ma) := by
  rw [align_eq_max] at haligned ⊢
  obtain ⟨rfl, rfl, rfl⟩ := haligned
  rw [max_comm]

theorem addOrdinary_comm (a b : Word) : addOrdinary a b = addOrdinary b a := by
  obtain ⟨⟨e, ma, mb⟩, haligned⟩ : ∃ p, align (expOf a).toNat (mantOf a) (expOf b).toNat (mantOf b) = p := ⟨_, rfl⟩
  have hswap := align_swap haligned
  by_cases hs : sgnOf a = sgnOf b
  · rcases lt_or_ge (ma + mb) (2 ^ 24) with hsum | hsum
    · rw [addOrdinary_of_sum_lt haligned hs hsum, addOrdinary_of_sum_lt hswap hs.symm (add_comm ma mb ▸ hsum), hs,
        add_comm]
    · rw [addOrdinary_of_le_sum haligned hs hsum, addOrdinary_of_le_sum hswap hs.symm (add_comm ma mb ▸ hsum), hs,
        add_comm ma]
  · have hs' := Ne.symm hs
    rcases lt_trichotomy ma mb with h | h | h
    · rw [addOrdinary_of_left_lt haligned hs h, addOrdinary_of_right_lt hswap hs' h]
    · rw [addOrdinary_of_cancel haligned hs h, addOrdinary_of_cancel hswap hs' h.symm]
    · rw [addOrdinary_of_right_lt haligned hs h, addOrdinary_of_left_lt hswap hs' h]

theorem faddFn_comm_of_isOrd (ha : isOrd a = true) (hb : isOrd b = true) : faddFn a b = faddFn b a := by
  cases hu : addOrdinary a b with
  | none => rw [faddFn_of_addOrdinary_none ha hb hu, faddFn_of_addOrdinary_none hb ha (addOrdinary_comm b a ▸ hu)]
  | some u => rw [faddFn_of_addOrdinary_some ha hb hu, faddFn_of_addOrdinary_some hb ha (addOrdinary_comm b a ▸ hu)]

theorem faddFn_comm_of_isInf (ha : isInf a = true) (hb : isNan b = false) : faddFn a b = faddFn b a := by
  cases hib : isInf b with
  | false => rw [faddFn_of_isInf_left ha hib hb, faddFn_of_isInf_right ha hib hb]
  | true =>
    by_cases hs : sgnOf a = sgnOf b
    · rw [eq_of_isInf ha hib hs]
    · rw [faddFn_of_isInf_isInf_opposite ha hib hs, faddFn_of_isInf_isInf_opposite hib ha (Ne.symm hs)]

theorem faddFn_comm_of_isZero (ha : isZero a = true) (hb : isZero b = true ∨ isOrd b = true) :
    faddFn a b = faddFn b a := by
  obtain hb | hb := hb
  · rw [faddFn_of_isZero_isZero ha hb, faddFn_of_isZero_isZero hb ha, Bool.and_comm]
  · rw [faddFn_of_isZero_isOrd ha hb, faddFn_of_isOrd_isZero hb ha]

/-- R97: no row of classes depends on which operand comes first. -/
theorem faddFn_comm (a b : Word) : faddFn a b = faddFn b a := by
  cases hna : isNan a with
  | true => rw [faddFn_of_isNan (.inl hna), faddFn_of_isNan (.inr hna)]
  | false =>
    obtain hb | hb | hb | hb := class_cases b
    · rw [faddFn_of_isNan (.inr hb), faddFn_of_isNan (.inl hb)]
    · exact (faddFn_comm_of_isInf hb hna).symm
    · obtain ha | ha | ha | ha := class_cases a
      · simp [hna] at ha
      · exact faddFn_comm_of_isInf ha (isNan_of_isZero hb)
      · exact faddFn_comm_of_isZero ha (.inl hb)
      · exact (faddFn_comm_of_isZero hb (.inr ha)).symm
    · obtain ha | ha | ha | ha := class_cases a
      · simp [hna] at ha
      · exact faddFn_comm_of_isInf ha (isNan_of_isOrd hb)
      · exact faddFn_comm_of_isZero ha (.inr hb)
      · exact faddFn_comm_of_isOrd ha hb

theorem mulOrdinary_comm (a b : Word) : mulOrdinary a b = mulOrdinary b a := by
  simp only [mulOrdinary, Bool.xor_comm (sgnOf b), mul_comm (mantOf b), add_comm ((expOf b).toNat : ℤ)]

/-- R99: every condition of `FMUL` is symmetric in its operands. -/
theorem fmulFn_comm (a b : Word) : fmulFn a b = fmulFn b a := by
  have hinvalid : (isInf b && isZero a || isZero b && isInf a) = (isInf a && isZero b || isZero a && isInf b) := by
    rw [Bool.or_comm, Bool.and_comm (isZero b), Bool.and_comm (isInf b)]
  simp only [fmulFn, Bool.xor_comm (sgnOf b), Bool.or_comm (isNan b), hinvalid, Bool.or_comm (isInf b),
    Bool.or_comm (isZero b), mulOrdinary_comm b]

/-- Settles O34: alignment is to the larger exponent whichever operand has it, and the classes are treated alike. -/
theorem faddFmulCommute : Obligations.FaddFmulCommute := fun a b => ⟨faddFn_comm a b, fmulFn_comm a b⟩

end Sys2Proof.Machine
end

section
/-!
PROOFS of spec/43_float_codec.md section 2 and spec/30_encoding.md section 5 about decimal strings: what is read of a
string of digits, the grammar of `ENC`, the decimal conversion, and the decimal operands of the assembler.
-/

namespace Sys2Proof.Machine

variable {c : Char} {cs t ip fp rest : List Char} {d : BitVec 4} {n v : Nat} {sg : Bool}

/-! ### Strings of digits -/

/-- R57, R78: every character is a digit of the table. -/
def AllDigits (t : List Char) : Prop := ∀ c ∈ t, (digit c).isSome = true

theorem allDigits_nil : AllDigits [] := nofun

theorem allDigits_cons : AllDigits (c :: cs) ↔ (∃ d, digit c = some d) ∧ AllDigits cs := by
  simp [AllDigits, Option.isSome_iff_exists]

theorem allDigits_append : AllDigits (ip ++ fp) ↔ AllDigits ip ∧ AllDigits fp := by
  simp only [AllDigits, List.mem_append, or_imp, forall_and]

theorem takeDigits_cons_of_some (h : digit c = some d) :
    takeDigits (c :: cs) = (d :: (takeDigits cs).1, (takeDigits cs).2) := by simp [takeDigits, h]

theorem takeDigits_cons_of_none (h : digit c = none) : takeDigits (c :: cs) = ([], c :: cs) := by
  simp [takeDigits, h]

/-- R78: the digits at the front of a string are taken whole. -/
theorem takeDigits_append (h : AllDigits ip) (rest : List Char) :
    takeDigits (ip ++ rest) = ((takeDigits ip).1 ++ (takeDigits rest).1, (takeDigits rest).2) := by
  induction ip with
  | nil => rfl
  | cons c cs ih =>
    obtain ⟨⟨d, hd⟩, hcs⟩ := allDigits_cons.1 h
    rw [List.cons_append, takeDigits_cons_of_some hd, takeDigits_cons_of_some hd, ih hcs]
    rfl

theorem takeDigits_snd_of_allDigits (h : AllDigits t) : (takeDigits t).2 = [] := by
  rw [← List.append_nil t, takeDigits_append h]
  rfl

/-- R78: what is taken from a string are the digits at its front, and what is left is what follows them. -/
theorem exists_takeDigits_eq (t : List Char) :
    ∃ ip rest, AllDigits ip ∧ t = ip ++ rest ∧ takeDigits t = ((takeDigits ip).1, rest) := by
  induction t with
  | nil => exact ⟨[], [], allDigits_nil, rfl, rfl⟩
  | cons c cs ih =>
    cases hd : digit c with
    | none => exact ⟨[], c :: cs, allDigits_nil, rfl, takeDigits_cons_of_none hd⟩
    | some d =>
      obtain ⟨ip, rest, hip, rfl, htake⟩ := ih
      refine ⟨c :: ip, rest, allDigits_cons.2 ⟨⟨d, hd⟩, hip⟩, rfl, ?_⟩
      rw [takeDigits_cons_of_some hd, takeDigits_cons_of_some hd, htake]

theorem allDigits_iff : AllDigits t ↔ (takeDigits t).2 = [] := by
  refine ⟨takeDigits_snd_of_allDigits, fun h => ?_⟩
  obtain ⟨ip, rest, hip, rfl, htake⟩ := exists_takeDigits_eq t
  obtain rfl : rest = [] := by rwa [htake] at h
  rwa [List.append_nil]

theorem length_takeDigits (h : AllDigits t) : (takeDigits t).1.length = t.length := by
  induction t with
  | nil => rfl
  | cons c cs ih =>
    obtain ⟨⟨d, hd⟩, hcs⟩ := allDigits_cons.1 h
    rw [takeDigits_cons_of_some hd, List.length_cons, List.length_cons, ih hcs]

theorem takeDigits_fst_eq_nil_iff (h : AllDigits t) : (takeDigits t).1 = [] ↔ t = [] := by
  rw [← List.length_eq_zero_iff, length_takeDigits h, List.length_eq_zero_iff]

theorem decimalValue_eq_some_iff :
    decimalValue t = some v ↔ t ≠ [] ∧ AllDigits t ∧ digitsValue (takeDigits t).1 = v := by
  simp only [decimalValue, Option.ite_none_right_eq_some, Option.some.injEq, ← allDigits_iff, and_assoc]
  exact ⟨fun ⟨hne, h, hv⟩ => ⟨(takeDigits_fst_eq_nil_iff h).not.1 hne, h, hv⟩,
    fun ⟨hne, h, hv⟩ => ⟨(takeDigits_fst_eq_nil_iff h).not.2 hne, h, hv⟩⟩

theorem decimalValue_eq_none_iff : decimalValue t = none ↔ t = [] ∨ ¬AllDigits t := by
  have hsome : decimalValue t ≠ none ↔ t ≠ [] ∧ AllDigits t := by
    simp [Option.ne_none_iff_exists', decimalValue_eq_some_iff]
  rw [← not_iff_not, ← ne_eq, hsome]
  tauto

/-! ### The decimal conversion -/

/-- R79, one digit: the running result is multiplied by ten and the digit added, modulo `2^n`. -/
theorem strToIntStep_ofNat (n v : Nat) (d : BitVec 4) :
    strToIntStep n (BitVec.ofNat n v) d = BitVec.ofNat n (v * 10 + d.toNat) := by
  have hfit : ∀ e : BitVec 4, fit e n = BitVec.ofNat n e.toNat := fun e => (BitVec.ofNat_toNat n e).symm
  rw [strToIntStep, adder_fst, mulr_eq_mul, hfit, hfit, BitVec.ofNat_add, BitVec.ofNat_mul]
  rfl

theorem strToIntFrom_of_allDigits (h : AllDigits t) (n v : Nat) :
    strToIntFrom n (BitVec.ofNat n v) t =
      some (BitVec.ofNat n ((takeDigits t).1.foldl (fun v d => v * 10 + d.toNat) v)) := by
  induction t generalizing v with
  | nil => rfl
  | cons c cs ih =>
    obtain ⟨⟨d, hd⟩, hcs⟩ := allDigits_cons.1 h
    simp only [strToIntFrom, hd, strToIntStep_ofNat, ih hcs, takeDigits_cons_of_some hd, List.foldl_cons]

theorem strToIntFrom_of_not_allDigits (h : ¬AllDigits t) (r : BitVec n) : strToIntFrom n r t = none := by
  induction t generalizing r with
  | nil => exact absurd allDigits_nil h
  | cons c cs ih =>
    cases hd : digit c with
    | none => simp only [strToIntFrom, hd]
    | some d =>
      simp only [strToIntFrom, hd]
      exact ih (fun hcs => h (allDigits_cons.2 ⟨⟨d, hd⟩, hcs⟩)) _

theorem strToInt_of_ne_nil (h : t ≠ []) : strToInt n t = strToIntFrom n 0 t := by
  cases t with
  | nil => exact absurd rfl h
  | cons c cs => rfl

theorem strToInt_of_decimalValue_some (h : decimalValue t = some v) : strToInt n t = some (BitVec.ofNat n v) := by
  obtain ⟨hne, hdigits, rfl⟩ := decimalValue_eq_some_iff.1 h
  rw [strToInt_of_ne_nil hne]
  exact strToIntFrom_of_allDigits hdigits n 0

theorem strToInt_of_decimalValue_none (h : decimalValue t = none) : strToInt n t = none := by
  obtain rfl | hdigits := decimalValue_eq_none_iff.1 h
  · rfl
  · cases t with
    | nil => rfl
    | cons c cs => exact strToIntFrom_of_not_allDigits hdigits 0

/-- Settles O19: each step is multiplication by ten and addition modulo `2^n`, and stops at a character that is no
digit. -/
theorem decimalStringValue : Obligations.DecimalStringValue := fun _ _ _ =>
  ⟨fun _ => strToInt_of_decimalValue_some, strToInt_of_decimalValue_none⟩

/-! ### The decimal operands of the assembler -/

/-- R44: a string of digits is not taken for a hex or a negative operand. -/
theorem wordOperand_of_allDigits (h : AllDigits t) : wordOperand t = decimalOperand t := by
  unfold wordOperand
  split
  · obtain ⟨-, h⟩ := allDigits_cons.1 h
    obtain ⟨⟨d, hx⟩, -⟩ := allDigits_cons.1 h
    exact absurd hx (by simp [digit])
  · obtain ⟨⟨d, hminus⟩, -⟩ := allDigits_cons.1 h
    exact absurd hminus (by simp [digit])
  · rfl

theorem decimalOperand_of_decimalValue (h : decimalValue t = some v) :
    decimalOperand t = if v ≤ 4294967295 then some (BitVec.ofNat 32 v) else none := by
  simp only [decimalOperand, h, strToInt_of_decimalValue_some h]

theorem negativeOperand_of_decimalValue (h : decimalValue t = some v) :
    negativeOperand t = if 1 ≤ v ∧ v ≤ 2147483648 then some (-(BitVec.ofNat 32 v)) else none := by
  simp only [negativeOperand, h, strToInt_of_decimalValue_some h, Option.map_some, compl_fst]

theorem wordOperand_minus (t : List Char) : wordOperand ('-' :: t) = negativeOperand t := rfl

/-- Settles O23: the exact value decides the range, and the operand is the conversion of the digits or its complement. -/
theorem assemblerDecimalOperands : Obligations.AssemblerDecimalOperands := by
  intro t v h
  obtain ⟨-, hdigits, -⟩ := decimalValue_eq_some_iff.1 h
  rw [wordOperand_of_allDigits hdigits, decimalOperand_of_decimalValue h, wordOperand_minus,
    negativeOperand_of_decimalValue h]
  exact ⟨fun hle => if_pos hle, fun hlt => if_neg (Nat.not_le.2 hlt), fun hlo hhi => if_pos ⟨hlo, hhi⟩,
    fun hout => if_neg (by omega)⟩

/-! ### The grammar of `ENC` -/

theorem takeDigits_point (fp : List Char) : takeDigits ('.' :: fp) = ([], '.' :: fp) :=
  takeDigits_cons_of_none rfl

theorem parseUnsigned_integer (hne : ip ≠ []) (h : AllDigits ip) :
    parseUnsigned sg ip = some ⟨sg, (takeDigits ip).1, []⟩ := by
  simp [parseUnsigned, takeDigits_snd_of_allDigits h, (takeDigits_fst_eq_nil_iff h).not.2 hne]

theorem parseUnsigned_point (hne : ip ≠ []) (hip : AllDigits ip) (hfp : AllDigits fp) :
    parseUnsigned sg (ip ++ '.' :: fp) = some ⟨sg, (takeDigits ip).1, (takeDigits fp).1⟩ := by
  simp [parseUnsigned, takeDigits_append hip, takeDigits_point, takeDigits_snd_of_allDigits hfp,
    (takeDigits_fst_eq_nil_iff hip).not.2 hne]

/-- R78's grammar without the sign: at least one digit, and optionally a point with digits. -/
def UnsignedShape (t : List Char) : Prop :=
  ∃ ip fp : List Char, ip ≠ [] ∧ AllDigits (ip ++ fp) ∧ (t = ip ∨ t = ip ++ '.' :: fp)

theorem unsignedShape_of_parseUnsigned (h : (parseUnsigned sg t).isSome = true) : UnsignedShape t := by
  obtain ⟨ip, rest, hip, rfl, htake⟩ := exists_takeDigits_eq t
  by_cases hne : ip = []
  · subst hne
    rw [List.nil_append] at htake h
    have hfirst : (takeDigits rest).1 = [] := congrArg Prod.fst htake
    simp [parseUnsigned, hfirst] at h
  · cases rest with
    | nil => exact ⟨ip, [], hne, by rwa [List.append_nil], .inl (List.append_nil ip)⟩
    | cons c fp =>
      have hpoint : c = '.' ∧ (takeDigits fp).2 = [] := by
        by_contra hn
        simp [parseUnsigned, htake, hn] at h
      obtain ⟨rfl, hfp⟩ := hpoint
      exact ⟨ip, fp, hne, allDigits_append.2 ⟨hip, allDigits_iff.2 hfp⟩, .inr rfl⟩

theorem parseUnsigned_isSome_iff : (parseUnsigned sg t).isSome = true ↔ UnsignedShape t := by
  refine ⟨unsignedShape_of_parseUnsigned, ?_⟩
  rintro ⟨ip, fp, hne, h, rfl | rfl⟩
  · rw [parseUnsigned_integer hne (allDigits_append.1 h).1, Option.isSome_some]
  · obtain ⟨hip, hfp⟩ := allDigits_append.1 h
    rw [parseUnsigned_point hne hip hfp, Option.isSome_some]

/-- R78: a string that begins with a digit has no sign, and with one in front of it has that sign. -/
theorem parseDecimal_withSign (hne : ip ≠ []) (hip : AllDigits ip) (sg : Bool) (rest : List Char) :
    parseDecimal (withSign sg (ip ++ rest)) = parseUnsigned sg (ip ++ rest) := by
  cases sg with
  | true => rfl
  | false =>
    obtain ⟨c, cs, rfl⟩ := List.exists_cons_of_ne_nil hne
    obtain ⟨⟨d, hd⟩, -⟩ := allDigits_cons.1 hip
    have hminus : c ≠ '-' := by
      rintro rfl
      simp [digit] at hd
    exact if_neg hminus

theorem parseDecimal_isSome_iff :
    (parseDecimal t).isSome = true ↔ ∃ sg t', UnsignedShape t' ∧ t = withSign sg t' := by
  constructor
  · intro h
    cases t with
    | nil => simp [parseDecimal] at h
    | cons c cs =>
      by_cases hc : c = '-'
      · subst hc
        exact ⟨true, cs, unsignedShape_of_parseUnsigned h, rfl⟩
      · rw [parseDecimal, if_neg hc] at h
        exact ⟨false, c :: cs, unsignedShape_of_parseUnsigned h, rfl⟩
  · rintro ⟨sg, t', hshape, rfl⟩
    have hsome := parseUnsigned_isSome_iff (sg := sg) |>.2 hshape
    obtain ⟨ip, fp, hne, h, rfl | rfl⟩ := hshape
    · have hparse := parseDecimal_withSign hne (allDigits_append.1 h).1 sg []
      rw [List.append_nil] at hparse
      rwa [hparse]
    · rwa [parseDecimal_withSign hne (allDigits_append.1 h).1]

/-- Settles O20: what is left after the digits at the front must be nothing or a point with digits, after the sign is
taken. -/
theorem encoderDomain : Obligations.EncoderDomain := by
  intro t
  rw [enc, Option.isSome_map, parseDecimal_isSome_iff]
  constructor
  · rintro ⟨sg, t', ⟨ip, fp, hne, h, ht'⟩, rfl⟩
    refine ⟨ip, fp, hne, h, ?_⟩
    cases sg with
    | false => exact ht'.elim .inl fun ht' => .inr (.inr (.inl ht'))
    | true => exact ht'.elim (fun ht' => .inr (.inl (congrArg _ ht'))) fun ht' => .inr (.inr (.inr (congrArg _ ht')))
  · rintro ⟨ip, fp, hne, h, rfl | rfl | rfl | rfl⟩
    · exact ⟨false, _, ⟨_, fp, hne, h, .inl rfl⟩, rfl⟩
    · exact ⟨true, _, ⟨ip, fp, hne, h, .inl rfl⟩, rfl⟩
    · exact ⟨false, _, ⟨ip, fp, hne, h, .inr rfl⟩, rfl⟩
    · exact ⟨true, _, ⟨ip, fp, hne, h, .inr rfl⟩, rfl⟩

/-! ### The value that `ENC` rounds -/

/-- R78: the word of a nonnegative value `v / q` with a sign, or the zero that keeps the sign. -/
def encodedWord (sg : Bool) (v q : Nat) : Word :=
  if v = 0 then signedZero sg else (pack (encodeMagnitude sg v q)).1

theorem encDecimal_eq (x : Decimal) : encDecimal x = encodedWord x.negative x.numerator x.denominator := rfl

theorem enc_point (hne : ip ≠ []) (h : decimalValue (ip ++ fp) = some v) (sg : Bool) :
    enc (withSign sg (ip ++ '.' :: fp)) = some (encodedWord sg v (10 ^ fp.length)) := by
  obtain ⟨-, hdigits, rfl⟩ := decimalValue_eq_some_iff.1 h
  obtain ⟨hip, hfp⟩ := allDigits_append.1 hdigits
  rw [enc, parseDecimal_withSign hne hip, parseUnsigned_point hne hip hfp, Option.map_some, encDecimal_eq,
    Decimal.denominator, length_takeDigits hfp, takeDigits_append hip]
  rfl

theorem enc_integer (h : decimalValue t = some v) (sg : Bool) : enc (withSign sg t) = some (encodedWord sg v 1) := by
  obtain ⟨hne, hdigits, rfl⟩ := decimalValue_eq_some_iff.1 h
  have hparse := parseDecimal_withSign hne hdigits sg []
  rw [List.append_nil, parseUnsigned_integer hne hdigits] at hparse
  rw [enc, hparse, Option.map_some, encDecimal_eq, Decimal.numerator, List.append_nil]
  rfl

end Sys2Proof.Machine
end

section
/-!
PROOFS of spec/43_float_codec.md section 2, `ENC`: the exponent is the floor of the binary logarithm, the mantissa is the
scaled value rounded to the nearest integer with ties upward, and an integer below `2^24` is not rounded at all.
-/

namespace Sys2Proof.Machine

variable {p q v : Nat} {u : Unpacked}

/-! ### The exponent -/

theorem natCeil_div (q : Nat) (hp : 0 < p) : ⌈(q : ℚ) / p⌉₊ = (q + p - 1) / p := by
  refine eq_of_forall_ge_iff fun c => ?_
  have hpq : (0 : ℚ) < p := Nat.cast_pos.2 hp
  rw [← Nat.ceilDiv_eq_add_pred_div, ceilDiv_le_iff_le_mul hp, Nat.ceil_le, div_le_iff₀ hpq, mul_comm]
  exact_mod_cast Iff.rfl

theorem clog_two_eq {c : Nat} (hc : 2 ≤ c) : Nat.clog 2 c = (c - 1).log2 + 1 := by
  have hlow : 2 ^ (c - 1).log2 ≤ c - 1 := Nat.log2_self_le (by omega)
  have hhigh : c - 1 < 2 ^ ((c - 1).log2 + 1) := Nat.lt_log2_self
  apply le_antisymm
  · exact (Nat.clog_le_iff_le_pow Nat.one_lt_two).2 (by omega)
  · exact (Nat.lt_clog_iff_pow_lt Nat.one_lt_two).2 (by omega)

/-- R78: `ex` is the floor of the binary logarithm of the exact value. -/
theorem floorLog2_eq_log (hp : 0 < p) (hq : 0 < q) : floorLog2 p q = Int.log 2 ((p : ℚ) / q) := by
  have hqq : (0 : ℚ) < q := Nat.cast_pos.2 hq
  unfold floorLog2
  split
  case isTrue hle =>
    have hone : (1 : ℚ) ≤ (p : ℚ) / q := (one_le_div hqq).2 (Nat.cast_le.2 hle)
    rw [Int.log_of_one_le_right 2 hone, Nat.floor_div_eq_div, Nat.log2_eq_log_two]
  case isFalse hlt =>
    have hone : (p : ℚ) / q ≤ 1 := (div_le_one hqq).2 (Nat.cast_le.2 (by omega))
    have htwo : 2 ≤ (q + p - 1) / p := (Nat.le_div_iff_mul_le hp).2 (by omega)
    rw [Int.log_of_right_le_one 2 hone, inv_div, natCeil_div q hp, clog_two_eq htwo]
    rfl

theorem floorLog2_bounds (hp : 0 < p) (hq : 0 < q) :
    (2 : ℚ) ^ floorLog2 p q ≤ (p : ℚ) / q ∧ (p : ℚ) / q < (2 : ℚ) ^ (floorLog2 p q + 1) := by
  have hpos : (0 : ℚ) < (p : ℚ) / q := div_pos (Nat.cast_pos.2 hp) (Nat.cast_pos.2 hq)
  rw [floorLog2_eq_log hp hq]
  exact ⟨Int.zpow_log_le_self Nat.one_lt_two hpos, Int.lt_zpow_succ_log_self Nat.one_lt_two _⟩

/-! ### The mantissa -/

/-- R78: the value `p / q` in units of the last place of its 24-bit mantissa. -/
def scaledValue (p q : Nat) : ℚ := (p : ℚ) / q * (2 : ℚ) ^ (23 - floorLog2 p q)

/-- R78: the mantissa before a carry is taken out of it. -/
def roundedMant (p q : Nat) : Nat :=
  floorScaled p q (23 - floorLog2 p q) + floorScaled p q (24 - floorLog2 p q) % 2

theorem encodeMagnitude_eq (sg : Bool) (p q : Nat) : encodeMagnitude sg p q =
    if roundedMant p q = 2 ^ 24 then ⟨sg, floorLog2 p q + 127 + 1, 2 ^ 23⟩
    else ⟨sg, floorLog2 p q + 127, roundedMant p q⟩ := rfl

theorem floorScaled_eq_floor (p q : Nat) (k : ℤ) : floorScaled p q k = ⌊(p : ℚ) / q * (2 : ℚ) ^ k⌋₊ := by
  unfold floorScaled
  split
  case isTrue hk =>
    obtain ⟨m, rfl⟩ := Int.eq_ofNat_of_zero_le hk
    rw [← Nat.floor_div_eq_div (K := ℚ), Int.toNat_natCast, zpow_natCast]
    push_cast
    rw [div_mul_eq_mul_div]
  case isFalse hk =>
    obtain ⟨m, hm⟩ := Int.eq_ofNat_of_zero_le (Int.neg_nonneg.2 (Int.not_le.1 hk).le)
    obtain rfl : k = -(m : ℤ) := by omega
    rw [← Nat.floor_div_eq_div (K := ℚ), Int.neg_neg, Int.toNat_natCast, zpow_neg, zpow_natCast]
    push_cast
    rw [div_mul_eq_div_div, div_eq_mul_inv ((p : ℚ) / q)]

/-- R78: the floor and the first discarded bit together are the nearest integer, and a tie goes up. -/
theorem floor_add_first_bit_bounds {x : ℚ} (hx : 0 ≤ x) :
    x - 1 / 2 < (⌊x⌋₊ + ⌊2 * x⌋₊ % 2 : ℕ) ∧ ((⌊x⌋₊ + ⌊2 * x⌋₊ % 2 : ℕ) : ℚ) ≤ x + 1 / 2 := by
  have hlow := Nat.floor_le hx
  have hhigh := Nat.lt_floor_add_one x
  have hlow₂ : (⌊2 * x⌋₊ : ℚ) ≤ 2 * x := Nat.floor_le (by linarith)
  have hhigh₂ := Nat.lt_floor_add_one (2 * x)
  have hle : 2 * ⌊x⌋₊ < ⌊2 * x⌋₊ + 1 := by
    have : (2 * ⌊x⌋₊ : ℚ) < ⌊2 * x⌋₊ + 1 := by linarith
    exact_mod_cast this
  have hge : ⌊2 * x⌋₊ < 2 * ⌊x⌋₊ + 2 := by
    have : (⌊2 * x⌋₊ : ℚ) < 2 * ⌊x⌋₊ + 2 := by linarith
    exact_mod_cast this
  obtain hbit | hbit : ⌊2 * x⌋₊ = 2 * ⌊x⌋₊ ∨ ⌊2 * x⌋₊ = 2 * ⌊x⌋₊ + 1 := by omega
  · have hsum : ⌊x⌋₊ + ⌊2 * x⌋₊ % 2 = ⌊x⌋₊ := by omega
    rw [hbit] at hhigh₂
    push_cast at hhigh₂
    rw [hsum]
    constructor <;> linarith
  · have hsum : ⌊x⌋₊ + ⌊2 * x⌋₊ % 2 = ⌊x⌋₊ + 1 := by omega
    rw [hbit] at hlow₂
    push_cast at hlow₂
    rw [hsum, Nat.cast_succ]
    constructor <;> linarith

theorem roundedMant_eq (p q : Nat) : roundedMant p q = ⌊scaledValue p q⌋₊ + ⌊2 * scaledValue p q⌋₊ % 2 := by
  have htwo : (2 : ℚ) * scaledValue p q = (p : ℚ) / q * (2 : ℚ) ^ (24 - floorLog2 p q) := by
    have hexp : 24 - floorLog2 p q = 1 + (23 - floorLog2 p q) := by ring
    rw [hexp, zpow_one_add₀ two_ne_zero, scaledValue]
    ring
  rw [roundedMant, floorScaled_eq_floor, floorScaled_eq_floor, htwo, scaledValue]

theorem scaledValue_nonneg (p q : Nat) : 0 ≤ scaledValue p q := by
  unfold scaledValue
  positivity

theorem roundedMant_near (p q : Nat) :
    scaledValue p q - 1 / 2 < roundedMant p q ∧ (roundedMant p q : ℚ) ≤ scaledValue p q + 1 / 2 := by
  rw [roundedMant_eq]
  exact floor_add_first_bit_bounds (scaledValue_nonneg p q)

/-- R78: in units of its last place the value has 24 bits before the point. -/
theorem scaledValue_bounds (hp : 0 < p) (hq : 0 < q) : 2 ^ 23 ≤ scaledValue p q ∧ scaledValue p q < 2 ^ 24 := by
  obtain ⟨hlow, hhigh⟩ := floorLog2_bounds hp hq
  have hunit : (0 : ℚ) < 2 ^ (23 - floorLog2 p q) := by positivity
  constructor
  · calc (2 : ℚ) ^ 23 = 2 ^ floorLog2 p q * 2 ^ (23 - floorLog2 p q) := by
          rw [← zpow_add₀ two_ne_zero, add_sub_cancel]
          rfl
      _ ≤ scaledValue p q := mul_le_mul_of_nonneg_right hlow hunit.le
  · calc scaledValue p q < 2 ^ (floorLog2 p q + 1) * 2 ^ (23 - floorLog2 p q) := mul_lt_mul_of_pos_right hhigh hunit
      _ = 2 ^ 24 := by
          rw [← zpow_add₀ two_ne_zero, show floorLog2 p q + 1 + (23 - floorLog2 p q) = 24 by ring]
          rfl

/-- R78: the rounded mantissa has 24 bits, but for the carry to `2^24`. -/
theorem roundedMant_bounds (hp : 0 < p) (hq : 0 < q) : 2 ^ 23 ≤ roundedMant p q ∧ roundedMant p q ≤ 2 ^ 24 := by
  obtain ⟨hlow, hhigh⟩ := scaledValue_bounds hp hq
  constructor
  · rw [roundedMant_eq]
    exact (Nat.le_floor (by exact_mod_cast hlow)).trans (Nat.le_add_right _ _)
  · have hlt : (roundedMant p q : ℚ) < 2 ^ 24 + 1 := by linarith [(roundedMant_near p q).2]
    exact Nat.le_of_lt_succ (by exact_mod_cast hlt)

/-! ### The encoded magnitude -/

theorem encodeMagnitude_mant_bounds (sg : Bool) (hp : 0 < p) (hq : 0 < q) :
    2 ^ 23 ≤ (encodeMagnitude sg p q).mant ∧ (encodeMagnitude sg p q).mant < 2 ^ 24 := by
  obtain ⟨hlow, hhigh⟩ := roundedMant_bounds hp hq
  rw [encodeMagnitude_eq]
  split
  case isTrue => exact ⟨Nat.le_refl _, Nat.pow_lt_pow_right Nat.one_lt_two (Nat.lt_succ_self 23)⟩
  case isFalse hcarry => exact ⟨hlow, Nat.lt_of_le_of_ne hhigh hcarry⟩

theorem encodeMagnitude_sign (sg : Bool) (p q : Nat) : (encodeMagnitude sg p q).sign = sg := by
  rw [encodeMagnitude_eq]
  split <;> rfl

theorem encodeMagnitude_exp_bounds (sg : Bool) (p q : Nat) :
    floorLog2 p q + 127 ≤ (encodeMagnitude sg p q).exp ∧ (encodeMagnitude sg p q).exp ≤ floorLog2 p q + 128 := by
  rw [encodeMagnitude_eq]
  split
  case isTrue => exact ⟨by dsimp only; omega, by dsimp only; omega⟩
  case isFalse => exact ⟨Int.le_refl _, by dsimp only; omega⟩

/-- R78: taking the carry out of the mantissa does not change the magnitude. -/
theorem encodeMagnitude_value (sg : Bool) (p q : Nat) :
    ((encodeMagnitude sg p q).mant : ℚ) * 2 ^ ((encodeMagnitude sg p q).exp - 150) =
      roundedMant p q * 2 ^ (floorLog2 p q - 23) := by
  rw [encodeMagnitude_eq]
  split
  case isTrue hcarry =>
    have hexp : floorLog2 p q + 127 + 1 - 150 = 1 + (floorLog2 p q - 23) := by ring
    rw [hcarry]
    dsimp only
    rw [hexp, zpow_one_add₀ two_ne_zero]
    push_cast
    ring
  case isFalse =>
    have hexp : floorLog2 p q + 127 - 150 = floorLog2 p q - 23 := by ring
    dsimp only
    rw [hexp]

theorem scaledValue_mul_unit (p q : Nat) : scaledValue p q * 2 ^ (floorLog2 p q - 23) = (p : ℚ) / q := by
  rw [scaledValue, mul_assoc, ← zpow_add₀ two_ne_zero,
    show 23 - floorLog2 p q + (floorLog2 p q - 23) = 0 by ring, zpow_zero, mul_one]

/-- R78: the encoded magnitude is within half a unit in the last place of the exact value, and a tie goes up. -/
theorem encodeMagnitude_near (sg : Bool) (p q : Nat) :
    (p : ℚ) / q - (2 : ℚ) ^ (floorLog2 p q - 24) <
        ((encodeMagnitude sg p q).mant : ℚ) * 2 ^ ((encodeMagnitude sg p q).exp - 150) ∧
      ((encodeMagnitude sg p q).mant : ℚ) * 2 ^ ((encodeMagnitude sg p q).exp - 150) ≤
        (p : ℚ) / q + (2 : ℚ) ^ (floorLog2 p q - 24) := by
  have hunit : (0 : ℚ) < 2 ^ (floorLog2 p q - 23) := by positivity
  have hhalf : (2 : ℚ) ^ (floorLog2 p q - 24) = 1 / 2 * 2 ^ (floorLog2 p q - 23) := by
    rw [show floorLog2 p q - 23 = 1 + (floorLog2 p q - 24) by ring, zpow_one_add₀ two_ne_zero]
    ring
  obtain ⟨hlow, hhigh⟩ := roundedMant_near p q
  rw [encodeMagnitude_value, ← scaledValue_mul_unit p q, hhalf, ← sub_mul, ← add_mul]
  exact ⟨mul_lt_mul_of_pos_right hlow hunit, mul_le_mul_of_nonneg_right hhigh hunit.le⟩

/-- Settles O21: the digits on both sides of the point are the numerator and the fraction digits count the tens of the
denominator; the mantissa is the nearest integer to the scaled value, and scaling back scales the half unit. -/
theorem encoderRoundsHalfUp : Obligations.EncoderRoundsHalfUp := by
  refine ⟨fun sg ip fp v w hne h hw => ?_, ?_⟩
  · rw [← signedZero_eq_ite] at hw
    obtain rfl : w = encodedWord sg v (10 ^ fp.length) := hw
    refine ⟨enc_point hne h sg, ?_⟩
    rintro rfl
    exact enc_integer (List.append_nil ip ▸ h) sg
  · rintro sg p q u hp hq rfl
    obtain ⟨hlow, hhigh⟩ := floorLog2_bounds hp hq
    obtain ⟨hm, hm'⟩ := encodeMagnitude_mant_bounds sg hp hq
    exact ⟨hlow, hhigh, encodeMagnitude_sign sg p q, hm, hm', encodeMagnitude_near sg p q⟩

/-! ### Integers below `2^24` -/

theorem sgnOf_pack (hlo : 0 ≤ u.exp) (hhi : u.exp < 255) : sgnOf (pack u).1 = u.sign := by
  rw [pack_of_inRange hlo hhi, sgnOf_packFields]

/-- R77, R94: what is packed within the exponent range decodes to the magnitude and the sign packed. -/
theorem val_pack (hlo : 0 < u.exp) (hhi : u.exp < 255) (hm : 2 ^ 23 ≤ u.mant) (hm' : u.mant < 2 ^ 24) :
    val (pack u).1 = .finite ((if u.sign then -1 else 1) * ((u.mant : ℚ) * 2 ^ (u.exp - 150))) := by
  have hexp := expOf_pack hlo.le hhi
  have hzero : isZero (pack u).1 = false := by
    rw [Bool.eq_false_iff, ne_eq, isZero_iff]
    omega
  have hinf : isInf (pack u).1 = false := by
    rw [Bool.eq_false_iff, ne_eq, isInf_iff]
    omega
  have hnan : isNan (pack u).1 = false := by
    rw [Bool.eq_false_iff, ne_eq, isNan_iff]
    omega
  rw [val_of_isOrd (isOrd_iff.2 ⟨hzero, hinf, hnan⟩), ordVal_eq_zpow, hexp, mantOf_pack hlo.le hhi hm hm',
    sgnOf_pack hlo.le hhi, mul_assoc, show u.exp - 127 - 23 = u.exp - 150 by ring]

theorem floorLog2_one (hv : 0 < v) : floorLog2 v 1 = v.log2 := by
  rw [floorLog2, if_pos (Nat.succ_le_of_lt hv), Nat.div_one]

theorem log2_le_of_lt (hv : 0 < v) (hlt : v < 2 ^ 24) : v.log2 ≤ 23 :=
  Nat.le_of_lt_succ ((Nat.log2_lt hv.ne').2 hlt)

/-- R78: an integer of at most 24 bits is a whole number of units in its last place, so it is not rounded. -/
theorem roundedMant_integer (hv : 0 < v) (hlt : v < 2 ^ 24) : (roundedMant v 1 : ℚ) = scaledValue v 1 := by
  have hlog := log2_le_of_lt hv hlt
  have hunits : scaledValue v 1 = (v * 2 ^ (23 - v.log2) : ℕ) := by
    have hexp : 23 - (v.log2 : ℤ) = (23 - v.log2 : ℕ) := by omega
    rw [scaledValue, floorLog2_one hv, hexp, zpow_natCast]
    push_cast
    ring
  obtain ⟨hlow, hhigh⟩ := roundedMant_near v 1
  rw [hunits] at hlow hhigh ⊢
  have hle : v * 2 ^ (23 - v.log2) < roundedMant v 1 + 1 := by
    have : ((v * 2 ^ (23 - v.log2) : ℕ) : ℚ) < roundedMant v 1 + 1 := by linarith
    exact_mod_cast this
  have hge : roundedMant v 1 < v * 2 ^ (23 - v.log2) + 1 := by
    have : (roundedMant v 1 : ℚ) < (v * 2 ^ (23 - v.log2) : ℕ) + 1 := by linarith
    exact_mod_cast this
  exact congrArg Nat.cast (Nat.le_antisymm (Nat.le_of_lt_succ hge) (Nat.le_of_lt_succ hle))

theorem val_encodedWord_integer (hlt : v < 2 ^ 24) (sg : Bool) :
    val (encodedWord sg v 1) = .finite ((if sg then -1 else 1) * (v : ℚ)) := by
  by_cases hz : v = 0
  · subst hz
    rw [encodedWord, if_pos rfl, val_of_isZero (by cases sg <;> rfl), Nat.cast_zero, mul_zero]
  · have hv : 0 < v := Nat.pos_of_ne_zero hz
    have hlog := log2_le_of_lt hv hlt
    obtain ⟨hexp, hexp'⟩ := encodeMagnitude_exp_bounds sg v 1
    obtain ⟨hm, hm'⟩ := encodeMagnitude_mant_bounds sg hv Nat.one_pos
    rw [floorLog2_one hv] at hexp hexp'
    rw [encodedWord, if_neg hz, val_pack (by omega) (by omega) hm hm', encodeMagnitude_sign, encodeMagnitude_value,
      roundedMant_integer hv hlt, scaledValue_mul_unit, Nat.cast_one, div_one]

/-- Settles O22: the magnitude is exact, and the sign is the one in front of the digits. -/
theorem encoderExactOnIntegers : Obligations.EncoderExactOnIntegers := fun _ _ h hlt =>
  ⟨_, _, enc_integer h false, enc_integer h true, by simp [val_encodedWord_integer hlt],
    by simp [val_encodedWord_integer hlt]⟩

end Sys2Proof.Machine
end
